-- ==== Sys2Proof/Word.lean ====
section
/-! DEFINITION. The machine's one word type and its size parameters (00_scope.md R8). -/

namespace Sys2Proof

/-- A register, a memory byte, an operand byte, an ALU operand or result: `XLEN` = 8 bits (R8). -/
abbrev Byte := BitVec 8

/-- `MEM_SIZE`: the number of memory bytes (R8, R40). -/
abbrev memSize : Nat := 256

/-- An address that names a byte of memory: 0..255 (R8, R40). -/
abbrev Addr := Fin memSize

end Sys2Proof
end

