-- ==== Sys2Proof/Syntax.lean ====
section
/-! DEFINITION. The instruction syntax: one constructor per row of spec/opcode_table.json (30_encoding.md R61, R65),
and the names of the registers (10_state.md R20). -/

namespace Sys2Proof

/-- The fixed set of general registers (R20, R10). -/
inductive Reg where
  | A
  | B
  | C
  | D
deriving DecidableEq, Repr

/-- A register-id byte as it stands in the instruction (R60, R62): any of its 256 values is legal (R63). The machine
decodes it with `RegId`; the syntax keeps the byte, so that no encoding is merged with another (log 16). -/
abbrev RegIdByte := Byte

/-- The instruction set, "fixed, closed set" (R65). -/
inductive Instr where
  /-- LOAD r, imm: format RI, opcode 0x01 (R120). -/
  | load (r : RegIdByte) (imm : Byte)
  /-- ADD d, s: format RR, opcode 0x02 (R125). -/
  | add (d s : RegIdByte)
  /-- AND d, s: format RR, opcode 0x03 (R130). -/
  | and (d s : RegIdByte)
  /-- OUT r: format R, opcode 0x04 (R140). -/
  | out (r : RegIdByte)
  /-- HLT: format N, opcode 0xFF (R145). -/
  | hlt
  /-- An unknown opcode, format N: `op` is any byte that no other row matches (R150). -/
  | unknown (op : Byte)
deriving DecidableEq, Repr

end Sys2Proof
end

