-- ==== Sys2Proof/WellFormed.lean ====
section
/-! DEFINITION. Which terms of `Instr` the encoding admits. Every register-id byte and every immediate is legal
(30_encoding.md R63, R64, R67); the one condition is that an unknown opcode is no opcode of the table (R65). -/

namespace Sys2Proof

/-- The opcode bytes that name a row of their own in the opcode map (R65). -/
def definedOpcodes : List Byte := [0x01#8, 0x02#8, 0x03#8, 0x04#8, 0xFF#8]

/-- The check on an instruction's fields (R65, R67). -/
def Instr.wellFormed : Instr → Bool
  | .load _ _ => true
  | .add _ _ => true
  | .and _ _ => true
  | .out _ => true
  | .hlt => true
  | .unknown op => !definedOpcodes.contains op

/-- An instruction that some bytes encode. -/
abbrev Instr.WellFormed (i : Instr) : Prop := i.wellFormed = true

end Sys2Proof
end

