-- ==== Sys2Proof/Decode.lean ====
section
/-! DEFINITION. The decoder and the encoder (30_encoding.md R60 to R68, 41_engine_cycle.md R103, R104). -/

namespace Sys2Proof

/-- The rows of the opcode map (R65), without their operands. -/
inductive OpcodeRow where
  | load
  | add
  | and
  | out
  | hlt
  | unknown
deriving DecidableEq, Repr

/-- The opcode map: all eight bits of the opcode byte select the row (R65). -/
def opcodeRow (op : Byte) : OpcodeRow :=
  if op = 0x01#8 then .load
  else if op = 0x02#8 then .add
  else if op = 0x03#8 then .and
  else if op = 0x04#8 then .out
  else if op = 0xFF#8 then .hlt
  else .unknown

/-- The length L of the instruction whose opcode byte is `op` (R66). -/
def opcodeLength (op : Byte) : Nat :=
  match opcodeRow op with
  | .load => 3
  | .add => 3
  | .and => 3
  | .out => 2
  | .hlt => 1
  | .unknown => 1

/-- The length of an instruction in bytes (R61). -/
def Instr.length : Instr → Nat
  | .load _ _ => 3
  | .add _ _ => 3
  | .and _ _ => 3
  | .out _ => 2
  | .hlt => 1
  | .unknown _ => 1

/-- One operand byte taken from the byte source `next`. -/
def takeOperand {σ ε : Type} (next : σ → Except ε (Byte × σ)) (mk : Byte → Instr) (s : σ) :
    Except ε (Instr × σ) :=
  match next s with
  | .error e => .error e
  | .ok (b, s') => .ok (mk b, s')

/-- Two operand bytes, taken in fetch order (R104). -/
def takeTwoOperands {σ ε : Type} (next : σ → Except ε (Byte × σ)) (mk : Byte → Byte → Instr) (s : σ) :
    Except ε (Instr × σ) :=
  match next s with
  | .error e => .error e
  | .ok (b, s') => takeOperand next (mk b) s'

/-- The decode state machine (R103, R104) over any source of bytes: one byte for the opcode, then the operand bytes
its row calls for, in the table's order, each by the same primitive (R46). The machine runs it on `Fetch`, `decode`
runs it on a list of bytes, so that both read the same encoding. -/
def decodeFrom {σ ε : Type} (next : σ → Except ε (Byte × σ)) (s : σ) : Except ε (Instr × σ) :=
  match next s with
  | .error e => .error e
  | .ok (op, s') =>
    match opcodeRow op with
    | .load => takeTwoOperands next .load s'
    | .add => takeTwoOperands next .add s'
    | .and => takeTwoOperands next .and s'
    | .out => takeOperand next .out s'
    | .hlt => .ok (.hlt, s')
    | .unknown => .ok (.unknown op, s')

/-- Why a list of bytes holds no instruction. No encoding is illegal (R67), so there is one reason only. -/
inductive DecodeReject where
  /-- The bytes end before the opcode, or before an operand byte the opcode calls for. -/
  | endOfBytes
deriving DecidableEq, Repr

/-- The next byte of a list of bytes. -/
def nextByte : List Byte → Except DecodeReject (Byte × List Byte)
  | [] => .error .endOfBytes
  | b :: bs => .ok (b, bs)

/-- The instruction at the front of a list of bytes, with the bytes after it. -/
def decode (bs : List Byte) : Except DecodeReject (Instr × List Byte) :=
  decodeFrom nextByte bs

/-- The bytes of an instruction, lowest address first (R61, R65). -/
def encode : Instr → List Byte
  | .load r imm => [0x01#8, r, imm]
  | .add d s => [0x02#8, d, s]
  | .and d s => [0x03#8, d, s]
  | .out r => [0x04#8, r]
  | .hlt => [0xFF#8]
  | .unknown op => [op]

/-- The three bytes (the longest instruction) of a word numbered as spec/opcode_table.json numbers its bits: bit 0 is
the least significant bit of the first byte, every bit from `nbits` on is 0. -/
def wordBytes (nbits w : Nat) : List Byte :=
  [BitVec.ofNat 8 (w % 2 ^ nbits),
   BitVec.ofNat 8 (w % 2 ^ nbits / 2 ^ 8),
   BitVec.ofNat 8 (w % 2 ^ nbits / 2 ^ 16)]

/-- The instruction the decoder reads from a word of the opcode table. -/
def decodeTableWord (nbits w : Nat) : Option Instr :=
  match decode (wordBytes nbits w) with
  | .ok (i, _) => some i
  | .error _ => none

end Sys2Proof
end

