-- ==== Sys2Proof/Config.lean ====
section
/-! DEFINITION. What the spec leaves to the launch: the one OPEN parameter of 00_scope.md R8. -/

namespace Sys2Proof

/-- `MEM_INIT` (R8, R34, 92_eei_decisions.md D2, 93_implementation_defined.md U4): the content at construction of
every memory byte the loader has not written. OPEN in the spec, so it has no body: nothing can evaluate it, and
whatever is proved holds for every content. DESIGN CHOICE of form, safe (log 1). -/
opaque Config.memInit : Nat → Byte

end Sys2Proof
end

