-- ==== Sys2Proof/Machine/State.lean ====
section
/-! DEFINITION. The state of the CORE, in full (10_state.md, opening table and R20 to R36), the reasons a step can
stop, and the state at construction (R34). -/

namespace Sys2Proof.Machine

/-- The Register File: four 8-bit registers (R20). -/
structure RegFile where
  a : Byte
  b : Byte
  c : Byte
  d : Byte
deriving DecidableEq, Repr

/-- The fault record's two kinds (R28, R160 to R162); a kind has no numeric code (D13). -/
inductive FaultRecord where
  /-- A fetch was attempted with the counter at `p`, at or past the memory size (R161). -/
  | programCounterOutOfBounds (p : Nat)
  /-- A memory read at the address `a`, outside 0..255 (R162); no run records it (R47). -/
  | outOfBounds (a : Int)
deriving DecidableEq, Repr

/-- The observation events (R175, D7; log 9). Register fields are decoded registers, not bytes. -/
inductive Event where
  | load (r : Reg) (imm result : Byte)
  | add (d s : Reg) (result : Byte)
  | and (d s : Reg) (result : Byte)
  | out (r : Reg) (value : Byte)
  | hlt
  | unknown (op : Byte)
deriving DecidableEq, Repr

/-- The memory bytes a load has written, as (address, byte) pairs in rising order of address (R31, R40, R43). An
unlisted address holds its construction content `Config.memInit` (R34, R44; logs 1 and 2). -/
abbrev Memory := List Host.Cell

/-- Everything the spec gives the machine: "There is nothing else" (10_state.md). -/
structure State where
  /-- A, B, C, D (R20). -/
  regs : RegFile
  /-- The program counter, an integer 0..256 (R24); 256 means that no byte is left (C8). -/
  pc : Nat
  /-- The running flag (R27). -/
  running : Bool
  /-- The fault record (R28). -/
  fault : Option FaultRecord
  /-- The 256 bytes of memory (R31, R40). -/
  mem : Memory
  /-- The observer trace of the current run, oldest event first (R32). -/
  trace : List Event
deriving DecidableEq, Repr

/-- Why the CORE has no step (R102). These are the stuck states of the model, not faults of the hardware: a hardware
fault is written into `State.fault` and the step that raises it answers a next state (logs 6 and 7). -/
inductive Fault where
  /-- Raised by `step` when `running` is false: no run was started, or HLT ended it (R102, R179). Safe. -/
  | notRunning
  /-- Raised by `step` when a fault record is held: the run is over (R102, R165). Safe. -/
  | runFaulted (record : FaultRecord)
deriving DecidableEq, Repr

/-- Why the model refuses. -/
inductive Refusal where
  /-- Raised by an arm of `exec` whose instruction has no meaning yet; no arm does. Safe. -/
  | notModelled (mnemonic : String)
  /-- Raised by a host interaction issued while a run is in progress: the host has no move then (R178, D9, U9;
  log 11). Unsafe against a host that breaks this duty. -/
  | runInProgress
deriving DecidableEq, Repr

/-- The machine at construction, its power-on reset (R34, R190). No run is in progress: a program runs after a load
and run start (R192; log 15). -/
def State.reset : State where
  regs := { a := 0#8, b := 0#8, c := 0#8, d := 0#8 }
  pc := 0
  running := false
  fault := none
  mem := []
  trace := []

end Sys2Proof.Machine
end

