-- ==== Sys2Proof/Machine/Operands.lean ====
section
/-! DEFINITION. Operand forms and the 8-bit mask (30_encoding.md R62 to R64, 00_scope.md section 5). -/

namespace Sys2Proof.Machine

/-- `mask8(v) = v & 0xFF`: the low 8 bits of an integer, which is v modulo 256 (00_scope.md section 5, G1; log 20). -/
def mask8 (v : Int) : Byte := BitVec.ofInt 8 v

/-- A byte as the unsigned integer in [0,255] it stands for (00_scope.md section 5; R87). -/
def unsigned (b : Byte) : Int := (b.toNat : Int)

/-- `RegId(b)`: the register-id table with its default A; never an error (R63). -/
def regId (b : RegIdByte) : Reg :=
  if b = 0#8 then .A
  else if b = 1#8 then .B
  else if b = 2#8 then .C
  else if b = 3#8 then .D
  else .A

/-- The register-id value of a register (R10, R20). -/
def regIdByte : Reg → RegIdByte
  | .A => 0#8
  | .B => 1#8
  | .C => 2#8
  | .D => 3#8

end Sys2Proof.Machine
end

