-- ==== Sys2Proof/Machine/Alu.lean ====
section
/-! DEFINITION. The ALU: a stateless function of an operation and one or two bytes (40_alu.md R80 to R89). -/

namespace Sys2Proof.Machine

/-- The operation select: exactly five values (R80, R89, D8; log 10). -/
inductive AluOp where
  | add
  | sub
  | and
  | or
  | not
deriving DecidableEq, Repr

/-- The result "computed at native width", before the mask (R81): exact integer arithmetic on the unsigned operands. -/
def aluNative (op : AluOp) (a b : Byte) : Int :=
  match op with
  | .add => unsigned a + unsigned b
  | .sub => unsigned a - unsigned b
  | .and => ((a.toNat &&& b.toNat : Nat) : Int)
  | .or => ((a.toNat ||| b.toNat : Nat) : Int)
  | .not => ~~~ (unsigned a)

/-- `ALU(op, a, b)`: the native result masked to 8 bits, uniformly for every operation (R80, R81); NOT ignores b. -/
def alu (op : AluOp) (a b : Byte) : Byte := mask8 (aluNative op a b)

end Sys2Proof.Machine
end

