-- ==== Sys2Proof/Machine/Flags.lean ====
section
/-! DEFINITION. The running flag. There are no status flags and no condition codes: no ALU operation writes a flag
and no instruction tests one (10_state.md R29, 40_alu.md R80, R81), so the file holds no flag computation. -/

namespace Sys2Proof.Machine

/-- `running <- v`: written by run start (true) and HLT (false) only (R27). -/
def State.setRunning (v : Bool) (s : State) : State := { s with running := v }

/-- Why the CORE has no step in this state, if it has none (R102). -/
def noStepReason (s : State) : Option Fault :=
  if s.running then
    match s.fault with
    | none => none
    | some f => some (.runFaulted f)
  else some .notRunning

/-- A step is enabled exactly when `running = true` and `fault = none` (R102): a run is in progress. -/
def stepEnabled (s : State) : Bool := s.running && s.fault.isNone

end Sys2Proof.Machine
end

