-- ==== Sys2Proof/Machine/Ops.lean ====
section
/-! DEFINITION. The named operations over memory and registers: the pseudocode primitives of 00_scope.md R9, raising
a fault, the fetch of an instruction, and run start. -/

namespace Sys2Proof.Machine

/-! Memory (20_memory.md). -/

/-- The byte a load wrote at `a`, if one did. -/
def Memory.lookup : Memory → Nat → Option Byte
  | [], _ => none
  | (k, v) :: m, a => if k = a then some v else Memory.lookup m a

/-- `mem[a]`: what the last load placed at `a`, or `MEM_INIT` (R53, R44, D2). -/
def Memory.byteAt (m : Memory) (a : Nat) : Byte :=
  match Memory.lookup m a with
  | some v => v
  | none => Config.memInit a

/-- A pair put in its place in the rising list, over the pair of the same address if there is one. -/
def Memory.insert : Memory → Nat → Byte → Memory
  | [], a, v => [(a, v)]
  | (k, w) :: m, a, v =>
    if a < k then (a, v) :: (k, w) :: m
    else if a = k then (a, v) :: m
    else (k, w) :: Memory.insert m a v

/-- `MemWrite(addr, 1, v)`: one byte, used only by the loader (R9, R43). -/
def Memory.write (m : Memory) (a : Addr) (v : Byte) : Memory := Memory.insert m a.val v

/-- Bytes copied to consecutive addresses from `i` on; bytes that would fall past address 255 are dropped (R43). -/
def Memory.copyFrom : Nat → List Byte → Memory → Memory
  | _, [], m => m
  | i, b :: bs, m =>
    if h : i < memSize then Memory.copyFrom (i + 1) bs (Memory.write m ⟨i, h⟩ b) else m

/-- The addresses rise strictly from `lo` on and all name a byte of memory. -/
def Memory.wfFrom : Nat → Memory → Bool
  | _, [] => true
  | lo, (a, _) :: m => decide (lo ≤ a) && decide (a < memSize) && Memory.wfFrom (a + 1) m

/-- The canonical form of the memory list (log 2). -/
def Memory.wf (m : Memory) : Bool := Memory.wfFrom 0 m

/-! Registers (10_state.md R20 to R22). -/

/-- The value of a register in a register file. -/
def RegFile.get (f : RegFile) : Reg → Byte
  | .A => f.a
  | .B => f.b
  | .C => f.c
  | .D => f.d

/-- A register file with one register replaced. -/
def RegFile.set (f : RegFile) (r : Reg) (v : Byte) : RegFile :=
  match r with
  | .A => { f with a := v }
  | .B => { f with b := v }
  | .C => { f with c := v }
  | .D => { f with d := v }

/-- `x[r]` (R9). -/
def State.readReg (s : State) (r : Reg) : Byte := s.regs.get r

/-- `x[r] <- v`: stores `mask8(v)`, for any integer v (R22). -/
def State.writeReg (r : Reg) (v : Int) (s : State) : State := { s with regs := s.regs.set r (mask8 v) }

/-- `Emit(e)`: appends e to the trace (R32). -/
def State.emit (e : Event) (s : State) : State := { s with trace := s.trace ++ [e] }

/-! Raising a fault (60_exceptions.md R165, R166). Nothing is saved, no mode changes and control goes nowhere: the
record is the whole effect. There is no return from a fault (R169); the record is cleared by run start only. -/

/-- `raise E(info)`: `fault <- E(info)`; `running` is not changed (R165, D5). -/
def State.raise (f : FaultRecord) (s : State) : State := { s with fault := some f }

/-! Fetch (20_memory.md). A fetch that raises answers `error` with the state that the raise leaves. -/

/-- `MemRead(addr, 1)`: bounds checked (R41). -/
def memRead (addr : Int) (s : State) : Except State Byte :=
  if addr < 0 ∨ 256 ≤ addr then .error (s.raise (.outOfBounds addr))
  else .ok (s.mem.byteAt addr.toNat)

/-- `Fetch()`: reads the byte at pc and advances pc by one; at pc ≥ 256 it raises before the read and leaves pc as it
is (R45). -/
def fetch (s : State) : Except State (Byte × State) :=
  if memSize ≤ s.pc then .error (s.raise (.programCounterOutOfBounds s.pc))
  else
    match memRead (s.pc : Int) s with
    | .error t => .error t
    | .ok b => .ok (b, { s with pc := s.pc + 1 })

/-- The opcode fetch and the operand fetches of one instruction (R103, R104): the instruction and the state with the
pc past it, or the state a failing fetch leaves. -/
def fetchInstr (s : State) : Except State (Instr × State) := decodeFrom fetch s

/-! Run start (41_engine_cycle.md). -/

/-- `RunStart()`: pc, running, fault and trace; registers and memory are not changed (R100, R35, D11). -/
def runStart (s : State) : State :=
  ({ s with pc := 0, fault := none, trace := [] } : State).setRunning true

/-- The address where `placeWord` puts an instruction: the pc, or 0 where the longest instruction does not fit. -/
def placeAddress (s : State) : Nat := if s.pc + 3 ≤ memSize then s.pc else 0

/-- The state with the three bytes of a table word placed where the next fetch reads, and a run in progress (log 15). -/
def placeWord (s : State) (nbits w : Nat) : State :=
  ({ s with
      pc := placeAddress s
      fault := none
      mem := Memory.copyFrom (placeAddress s) (wordBytes nbits w) s.mem } : State).setRunning true

end Sys2Proof.Machine
end

