-- ==== Sys2Proof/Machine/ControlObservation.lean ====
section
/-! DEFINITION. OUT, HLT and the unknown opcodes (43_control_and_observation.md). -/

namespace Sys2Proof.Machine

/-- `Exec_OUT`: the observation of a register's value, no mutation (R140). -/
def execOut (r : RegIdByte) (s : State) : Host.Outcome State Fault Refusal :=
  .next (s.emit (.out (regId r) (s.readReg (regId r))))

/-- `Exec_HLT`: the one instruction that writes `running` (R145). -/
def execHlt (s : State) : Host.Outcome State Fault Refusal :=
  .next ((s.setRunning false).emit .hlt)

/-- `Exec_UNKNOWN(op)`: reports itself, no mutation, execution continues (R150). -/
def execUnknown (op : Byte) (s : State) : Host.Outcome State Fault Refusal :=
  .next (s.emit (.unknown op))

end Sys2Proof.Machine
end

