-- ==== Sys2Proof/Machine/RegisterInstructions.lean ====
section
/-! DEFINITION. LOAD, ADD and AND (42_register_instructions.md). A meaning starts after the instruction's bytes have
been fetched: its state has the pc past them, and no meaning moves the pc (10_state.md R25). -/

namespace Sys2Proof.Machine

/-- The computation ADD and AND share (R125, R130): both operands are read before the write (R195); answers the
result and the state with the destination written. -/
def aluIntoRegister (op : AluOp) (di si : Reg) (s : State) : Byte × State :=
  let v := alu op (s.readReg di) (s.readReg si)
  (v, s.writeReg di (unsigned v))

/-- `Exec_LOAD` (R120). -/
def execLoad (r : RegIdByte) (imm : Byte) (s : State) : Host.Outcome State Fault Refusal :=
  let ri := regId r
  let s' := s.writeReg ri (unsigned imm)
  .next (s'.emit (.load ri imm (s'.readReg ri)))

/-- `Exec_ADD` (R125). -/
def execAdd (d src : RegIdByte) (s : State) : Host.Outcome State Fault Refusal :=
  let di := regId d
  let si := regId src
  let (v, s') := aluIntoRegister .add di si s
  .next (s'.emit (.add di si v))

/-- `Exec_AND` (R130). -/
def execAnd (d src : RegIdByte) (s : State) : Host.Outcome State Fault Refusal :=
  let di := regId d
  let si := regId src
  let (v, s') := aluIntoRegister .and di si s
  .next (s'.emit (.and di si v))

end Sys2Proof.Machine
end

