-- ==== Sys2Proof/Machine/Dispatch.lean ====
section
/-! DEFINITION. The dispatch: one arm per row of the opcode map (41_engine_cycle.md R103). -/

namespace Sys2Proof.Machine

def exec (i : Instr) (s : State) : Host.Outcome State Fault Refusal :=
  match i with
  | .load r imm => Sys2Proof.Machine.execLoad r imm s
  | .add d src => Sys2Proof.Machine.execAdd d src s
  | .and d src => Sys2Proof.Machine.execAnd d src s
  | .out r => Sys2Proof.Machine.execOut r s
  | .hlt => Sys2Proof.Machine.execHlt s
  | .unknown op => Sys2Proof.Machine.execUnknown op s

end Sys2Proof.Machine
end

