-- ==== Sys2Proof/Machine/Step.lean ====
section
/-! DEFINITION. One step: the execution of one whole instruction (41_engine_cycle.md R101 to R105). -/

namespace Sys2Proof.Machine

/-- `Step()` (R103). Where the CORE has no step (R102) the machine is stuck, by name. A fetch that raises ends the
step with the fault recorded (R165); otherwise the fetched instruction runs. -/
def step (s : State) : Host.Outcome State Fault Refusal :=
  match noStepReason s with
  | some r => .fault r
  | none =>
    match fetchInstr s with
    | .error t => .next t
    | .ok (i, t) => exec i t

/-- The state whose very next step fetches and runs the instruction of a table word: a load of its bytes at the fetch
address and the start of a run, from outside the machine (R192; log 15). -/
def State.withFetchWord (s : State) (nbits w : Nat) : State := placeWord s nbits w

end Sys2Proof.Machine
end

