-- ==== Sys2Proof/Machine/Notation.lean ====
section
/-! DEFINITION. The spec's written notation: its assembler lines (30_encoding.md R70, D15; log 18) and the two forms
in which the observer can report a register value (60_exceptions.md R176). It has no effect on the machine. -/

namespace Sys2Proof.Machine

/-- The digits in the order of their values, as the notation writes them (R70, R176): the one table that reading and
writing a numeral share. -/
def digitTable : List Char := "0123456789ABCDEF".toList

/-- The value of a digit character: its place in the table, a letter in either case. -/
def digitValue (c : Char) : Option Nat := digitTable.idxOf? c.toUpper

/-- The digits of a numeral read on from the value `acc`; every digit must be one of the base. -/
def numeralFrom (base : Nat) : Nat → List Char → Option Nat
  | acc, [] => some acc
  | acc, c :: cs =>
    match digitValue c with
    | some v => if v < base then numeralFrom base (acc * base + v) cs else none
    | none => none

/-- A numeral of at least one digit whose value is a byte. -/
def byteNumeral (base : Nat) (cs : List Char) : Option Byte :=
  match cs with
  | [] => none
  | _ :: _ =>
    match numeralFrom base 0 cs with
    | some v => if v < 256 then some (BitVec.ofNat 8 v) else none
    | none => none

/-- An immediate: decimal, `0x` hexadecimal or `0b` binary, in [0,255] (R70). -/
def parseImmediate (cs : List Char) : Option Byte :=
  match cs with
  | '0' :: 'x' :: ds => byteNumeral 16 ds
  | '0' :: 'b' :: ds => byteNumeral 2 ds
  | ds => byteNumeral 10 ds

/-- A register operand: A, B, C, D, or `reg<n>` with n the decimal value of a byte outside 0..3 (R70). -/
def parseRegister (cs : List Char) : Option RegIdByte :=
  match cs with
  | ['A'] => some 0#8
  | ['B'] => some 1#8
  | ['C'] => some 2#8
  | ['D'] => some 3#8
  | 'r' :: 'e' :: 'g' :: ds =>
    match byteNumeral 10 ds with
    | some b => if 3 < b.toNat then some b else none
    | none => none
  | _ => none

/-- The text of a line before its comment (R70). -/
def stripComment : List Char → List Char
  | [] => []
  | c :: cs => if c = ';' then [] else c :: stripComment cs

/-- Text without the spaces before and after it. -/
def trimSpaces (cs : List Char) : List Char :=
  ((cs.dropWhile (· == ' ')).reverse.dropWhile (· == ' ')).reverse

/-- The operands of a line: separated by a comma and optional space (R70). -/
def splitOperands : List Char → List (List Char)
  | [] => [[]]
  | c :: cs =>
    if c = ',' then [] :: splitOperands cs
    else
      match splitOperands cs with
      | [] => [[c]]
      | w :: ws => (c :: w) :: ws

/-- The mnemonic of a line (the text before its first space) and its operands, none where nothing follows. -/
def splitLine (cs : List Char) : List Char × List (List Char) :=
  let rest := trimSpaces (cs.dropWhile (· != ' '))
  (cs.takeWhile (· != ' '), if rest.isEmpty then [] else (splitOperands rest).map trimSpaces)

/-- The instruction of a mnemonic and its operands, destination first (R70). -/
def assembleFields (mnemonic : List Char) (operands : List (List Char)) : Option Instr :=
  if mnemonic = "LOAD".toList then
    match operands with
    | [r, v] =>
      match parseRegister r, parseImmediate v with
      | some r, some v => some (.load r v)
      | _, _ => none
    | _ => none
  else if mnemonic = "ADD".toList then
    match operands with
    | [d, s] =>
      match parseRegister d, parseRegister s with
      | some d, some s => some (.add d s)
      | _, _ => none
    | _ => none
  else if mnemonic = "AND".toList then
    match operands with
    | [d, s] =>
      match parseRegister d, parseRegister s with
      | some d, some s => some (.and d s)
      | _, _ => none
    | _ => none
  else if mnemonic = "OUT".toList then
    match operands with
    | [r] => (parseRegister r).map .out
    | _ => none
  else if mnemonic = "HLT".toList then
    match operands with
    | [] => some .hlt
    | _ => none
  else if mnemonic = ".byte".toList then
    match operands with
    | [['0', 'x', h, l]] =>
      match byteNumeral 16 [h, l] with
      | some op => if (Instr.unknown op).wellFormed then some (.unknown op) else none
      | none => none
    | _ => none
  else none

/-- The instruction of one line, comment and outer spaces aside (R70). -/
def assembleLine (line : List Char) : Option Instr :=
  let (mnemonic, operands) := splitLine (trimSpaces (stripComment line))
  assembleFields mnemonic operands

/-- The bytes of a program, one instruction per line: the encodings one after another (R70). Lines that hold only a
comment or spaces give no bytes. -/
def assembleProgram : List (List Char) → Option (List Byte)
  | [] => some []
  | line :: lines =>
    if (trimSpaces (stripComment line)).isEmpty then assembleProgram lines
    else
      match assembleLine line, assembleProgram lines with
      | some i, some bs => some (encode i ++ bs)
      | _, _ => none

/-- A byte in decimal (R70, R176). -/
def decimalText (b : Byte) : List Char := Nat.toDigits 10 b.toNat

/-- The character of a digit below 16, upper case. -/
def hexDigit (n : Nat) : Char := digitTable.getD n '0'

/-- A byte as two upper-case hexadecimal digits (R176): 44 is `2C`. -/
def hexText (b : Byte) : List Char := [hexDigit (b.toNat / 16), hexDigit (b.toNat % 16)]

/-- A register operand as the notation writes its byte (R70). -/
def registerText (b : RegIdByte) : List Char :=
  if b = 0#8 then ['A']
  else if b = 1#8 then ['B']
  else if b = 2#8 then ['C']
  else if b = 3#8 then ['D']
  else "reg".toList ++ decimalText b

/-- An instruction as the notation writes it (R70), immediates in decimal. -/
def lineText : Instr → List Char
  | .load r imm => "LOAD ".toList ++ registerText r ++ ", ".toList ++ decimalText imm
  | .add d s => "ADD ".toList ++ registerText d ++ ", ".toList ++ registerText s
  | .and d s => "AND ".toList ++ registerText d ++ ", ".toList ++ registerText s
  | .out r => "OUT ".toList ++ registerText r
  | .hlt => "HLT".toList
  | .unknown op => ".byte 0x".toList ++ hexText op

/-- What the observer can report of a register of the final snapshot: its value in decimal and in two-digit
upper-case hexadecimal (R176). -/
def reportText (v : Byte) : List Char × List Char := (decimalText v, hexText v)

end Sys2Proof.Machine
end

