-- ==== Sys2Proof/Machine/Runner.lean ====
section
/-! DEFINITION. The Runner loop (41_engine_cycle.md R106 to R108) and the host's interactions with the CORE
(60_exceptions.md R178). -/

namespace Sys2Proof.Machine

/-- "while running = true and fault = none: Step()", for at most `n` steps (R106). -/
def runLoop : Nat → State → State
  | 0, s => s
  | n + 1, s =>
    match step s with
    | .next t => runLoop n t
    | .fault _ => s
    | .refused _ => s

/-- `Run()`: run start, then the loop (R106). 257 steps are enough for every run (R108; log 19). -/
def run (s : State) : State := runLoop 257 (runStart s)

/-- `load(bytes)`: copies from address 0, drops what does not fit, never faults (R43); the rest of memory stays as it
was (R44). -/
def load (bytes : List Byte) (s : State) : State := { s with mem := Memory.copyFrom 0 bytes s.mem }

/-- The host's moves (R178), but for construction, which is `State.reset`, and reading the final state,
which is `readFinalState`. -/
inductive HostAction where
  | load (bytes : List Byte)
  | preload (r : Reg) (v : Int)
  | run
deriving DecidableEq, Repr

/-- A move of the host. It has none while a run is in progress (R178, D9; log 11). -/
def hostAct (a : HostAction) (s : State) : Host.Outcome State Fault Refusal :=
  if stepEnabled s then .refused .runInProgress
  else
    match a with
    | .load bytes => .next (load bytes s)
    | .preload r v => .next (s.writeReg r v)
    | .run => .next (run s)

/-- A run has ended (R107): a fault is recorded, or `running` is false with the pc past an instruction. A CORE that
never ran has `running` false too, but its pc is still 0 (R34, D3), where HLT leaves at least 1 (R145); log 11. -/
def runEnded (s : State) : Bool := s.fault.isSome || (!s.running && decide (s.pc ≠ 0))

/-- The final state, which the host may read after a run ends and at no other time (R30, R111, R178): not during a
run, and not before the first. -/
def readFinalState (s : State) : Option State := if runEnded s then some s else none

/-- The observer's final snapshot: the four register values of the final state, halted or faulted (R111, R176, D12;
log 14). -/
def finalSnapshot (s : State) : Option RegFile := (readFinalState s).map State.regs

end Sys2Proof.Machine
end

