-- ==== Sys2Proof/Safety.lean ====
section
/-! DEFINITION. What the statements speak of: the invariant of the machine's states, the two endings of a run, the
bytes that lie ahead of the pc, and the frames. -/

namespace Sys2Proof.Machine

/-- The invariant of the states a launch reaches.
* the pc is in 0..256 (10_state.md R24);
* memory is in its canonical form (log 2);
* there are at most as many events as fetched bytes (R45, R109);
* a fault record is `ProgramCounterOutOfBounds(256)`, held with pc = 256 and `running` still true (R107, R161);
* once HLT has been reported `running` is false (R145);
* `running` is false only before the first run, with pc 0 and no event (R34), or after HLT, the last event
  (R27, R145, R109). -/
def State.Inv (s : State) : Prop :=
  s.pc ≤ 256 ∧
  s.mem.wf = true ∧
  s.trace.length ≤ s.pc ∧
  (∀ f, s.fault = some f → f = .programCounterOutOfBounds 256 ∧ s.pc = 256 ∧ s.running = true) ∧
  (Event.hlt ∈ s.trace → s.running = false) ∧
  (s.running = false → (s.pc = 0 ∧ s.trace = []) ∨ s.trace.getLast? = some .hlt)

/-- The ending "halted" (41_engine_cycle.md R107). -/
def State.Halted (s : State) : Prop := s.running = false ∧ s.fault = none

/-- The ending "faulted" (41_engine_cycle.md R107). -/
def State.Faulted (s : State) : Prop :=
  s.running = true ∧ s.fault = some (.programCounterOutOfBounds 256)

/-- The bytes from the pc to the end of memory, in fetch order. -/
def State.bytesAhead (s : State) : List Byte :=
  (List.range' s.pc (256 - s.pc)).map (fun a => s.mem.byteAt a)

/-- The state that a fetch past the end of memory leaves (60_exceptions.md R161, R165, R167): pc at 256, the record
written, nothing else changed. -/
def State.faultedPastEnd (s : State) : State :=
  { s with pc := 256, fault := some (.programCounterOutOfBounds 256) }

/-- Every byte of memory reads as before. -/
def SameMemory (s t : State) : Prop := ∀ a : Nat, t.mem.byteAt a = s.mem.byteAt a

/-- Every register reads as before. -/
def SameRegs (s t : State) : Prop := ∀ q : Reg, t.readReg q = s.readReg q

/-- Every register but `r` reads as before. -/
def SameRegsExcept (r : Reg) (s t : State) : Prop := ∀ q : Reg, q ≠ r → t.readReg q = s.readReg q

/-- The pc, the running flag and the fault record are as before. -/
def SameControl (s t : State) : Prop := t.pc = s.pc ∧ t.running = s.running ∧ t.fault = s.fault

end Sys2Proof.Machine
end

