-- ==== Sys2Proof/Certificates/Slice0/Obligations.lean ====
section
/-! DEFINITION. The statements for the provers. The pc of a meaning's state is the pc after the fetches: a meaning
never moves it. Where a docstring names a decision D<n> of 92_eei_decisions.md, that clause is the spec's own choice,
not a sentence of its source, and the log entry named with it says so. -/

open Sys2Proof Sys2Proof.Machine

/-! Reset and run start. -/

/-- What construction leaves (10_state.md R34). Only the registers' value is the source's; the pc, running, fault and
trace are the spec's own choice D3 (log 4), the memory content is the OPEN parameter of D2 (log 1). -/
def Obligations.ResetHoldsConstructionValues : Prop :=
  (∀ r, State.reset.readReg r = 0#8) ∧
  (∀ a, State.reset.mem.byteAt a = Config.memInit a) ∧
  State.reset.pc = 0 ∧ State.reset.running = false ∧ State.reset.fault = none ∧ State.reset.trace = []

/-- The constructed machine meets the model's invariant (its clauses: `State.Inv`; the memory form is log 2). -/
def Obligations.ResetSatisfiesInv : Prop := State.reset.Inv

/-- Run start from any state: pc, running, fault and trace reset, registers and every byte of memory kept, and a step
is then enabled (41_engine_cycle.md R100; clearing fault and trace is the spec's own choice D11, log 13). -/
def Obligations.RunStartResetsControlAndKeepsData : Prop :=
  ∀ s : State,
    (runStart s).pc = 0 ∧ (runStart s).running = true ∧ (runStart s).fault = none ∧ (runStart s).trace = [] ∧
    SameRegs s (runStart s) ∧ SameMemory s (runStart s) ∧ stepEnabled (runStart s) = true

/-! Primitives. -/

/-- A register write stores the low 8 bits of any integer, a byte as it is, and no other register changes
(10_state.md R22; low 8 bits as modulo 256: G1, log 20). -/
def Obligations.RegisterWriteStoresLowEightBits : Prop :=
  ∀ (s : State) (r : Reg) (v : Int),
    (((s.writeReg r v).readReg r).toNat : Int) = v % 256 ∧
    (∀ b : Byte, v = (b.toNat : Int) → (s.writeReg r v).readReg r = b) ∧
    SameRegsExcept r s (s.writeReg r v) ∧ SameControl s (s.writeReg r v) ∧ SameMemory s (s.writeReg r v) ∧
    (s.writeReg r v).trace = s.trace

/-- `MemRead` answers the byte at an address in 0..255 and raises `OutOfBounds` at any other (20_memory.md R41). -/
def Obligations.MemReadIsBoundsChecked : Prop :=
  ∀ (addr : Int) (s : State),
    (0 ≤ addr → addr < 256 → memRead addr s = .ok (s.mem.byteAt addr.toNat)) ∧
    (addr < 0 ∨ 256 ≤ addr → memRead addr s = .error { s with fault := some (.outOfBounds addr) })

/-- `Fetch` below 256 answers the byte at pc and advances pc by one; at 256 or more it raises before the read and
leaves the pc (20_memory.md R45). -/
def Obligations.FetchReadsAndAdvancesOrRaises : Prop :=
  ∀ s : State,
    (s.pc < 256 → fetch s = .ok (s.mem.byteAt s.pc, { s with pc := s.pc + 1 })) ∧
    (256 ≤ s.pc → fetch s = .error { s with fault := some (.programCounterOutOfBounds s.pc) })

/-- `RegId` by its table, with A for every byte past it (30_encoding.md R63). -/
def Obligations.RegIdIsTableWithDefaultA : Prop :=
  regId 0#8 = .A ∧ regId 1#8 = .B ∧ regId 2#8 = .C ∧ regId 3#8 = .D ∧ ∀ b : Byte, 4 ≤ b.toNat → regId b = .A

/-- ADD wraps modulo 256; AND is bit by bit (40_alu.md R82, R84). -/
def Obligations.AluAddWrapsAndAluAndIsBitwise : Prop :=
  ∀ a b : Byte,
    ((alu .add a b).toNat = (a.toNat + b.toNat) % 256 ∧
      (a.toNat + b.toNat ≤ 255 → (alu .add a b).toNat = a.toNat + b.toNat) ∧
      (256 ≤ a.toNat + b.toNat → (alu .add a b).toNat = a.toNat + b.toNat - 256)) ∧
    (∀ i, i < 8 → (alu .and a b).getLsbD i = (a.getLsbD i && b.getLsbD i))

/-- SUB wraps modulo 256, OR is bit by bit, NOT is 255 minus its operand and ignores the other
(40_alu.md R83, R85, R86). -/
def Obligations.AluSubWrapsOrIsBitwiseNotComplements : Prop :=
  ∀ a b : Byte,
    ((b.toNat ≤ a.toNat → (alu .sub a b).toNat = a.toNat - b.toNat) ∧
      (a.toNat < b.toNat → (alu .sub a b).toNat = a.toNat + 256 - b.toNat)) ∧
    (∀ i, i < 8 → (alu .or a b).getLsbD i = (a.getLsbD i || b.getLsbD i)) ∧
    ((alu .not a b).toNat = 255 - a.toNat ∧ ∀ i, i < 8 → (alu .not a b).getLsbD i = !a.getLsbD i)

/-! Encoding. -/

/-- Words written out from the opcode table, one of each row (95_test_vectors.md V10, V17, V21, V23, V24, V28). -/
def Obligations.SampleWordsDecode : Prop :=
  decode [0b00000001#8, 0b00000010#8, 0b01111111#8] = .ok (.load 2#8 127#8, []) ∧
  decode [0b00000010#8, 0b00000111#8, 0b00000001#8] = .ok (.add 7#8 1#8, []) ∧
  decode [0b00000011#8, 0b00000010#8, 0b00000011#8] = .ok (.and 2#8 3#8, []) ∧
  decode [0b00000100#8, 0b01100011#8] = .ok (.out 99#8, []) ∧
  decode [0b11111111#8] = .ok (.hlt, []) ∧
  decode [0b11111110#8] = .ok (.unknown 254#8, [])

/-- The formats N, R, RR and RI: the opcode, then the operand bytes in fetch order, each a whole byte; what follows is
left over (30_encoding.md R61). -/
def Obligations.FormatsPlaceEveryField : Prop :=
  ∀ (b1 b2 : Byte) (rest : List Byte),
    decode (0x01#8 :: b1 :: b2 :: rest) = .ok (.load b1 b2, rest) ∧
    decode (0x02#8 :: b1 :: b2 :: rest) = .ok (.add b1 b2, rest) ∧
    decode (0x03#8 :: b1 :: b2 :: rest) = .ok (.and b1 b2, rest) ∧
    decode (0x04#8 :: b1 :: rest) = .ok (.out b1, rest) ∧
    decode (0xFF#8 :: rest) = .ok (.hlt, rest) ∧
    ∀ op : Byte, op ∉ definedOpcodes → decode (op :: rest) = .ok (.unknown op, rest)

/-- Decoding the bytes of a well-formed instruction gives it back, whatever follows: every instruction, every operand
at every value. -/
def Obligations.DecodeOfEncodeIsTheInstruction : Prop :=
  ∀ (i : Instr) (rest : List Byte), i.WellFormed → decode (encode i ++ rest) = .ok (i, rest)

/-- Bytes that decode are the encoding of a well-formed instruction and the rest: no bit of a field is dropped and no
two encodings share an instruction. -/
def Obligations.DecodedBytesAreTheEncoding : Prop :=
  ∀ (bs rest : List Byte) (i : Instr),
    decode bs = .ok (i, rest) → i.WellFormed ∧ bs = encode i ++ rest ∧ i.length = opcodeLength (bs.headD 0#8)

/-- Decoding rejects bytes exactly when they end before the instruction does: no encoding is illegal. -/
def Obligations.DecodeRejectsExactlyTruncatedBytes : Prop :=
  ∀ bs : List Byte,
    decode bs = .error .endOfBytes ↔ bs.length < opcodeLength (bs.headD 0#8)

/-- A line of the spec's notation assembles to the instruction it was written from (R70, the spec's own choice D15;
log 18). -/
def Obligations.WrittenLineAssemblesBack : Prop :=
  ∀ i : Instr, i.WellFormed → assembleLine (lineText i) = some i

/-! The six instructions: the meaning in every state, and the step that fetches it. The event clauses follow the
spec's rendering (R175, its own choice D7; log 9), the fault clauses its record (D5, D6; logs 6 and 8). -/

/-- LOAD (42_register_instructions.md R120): in every state and for every operand byte it answers a next state with
the named register holding the immediate and nothing else changed but the trace; a step at an opcode byte 0x01 runs it
with the two bytes that follow, and at 254 and 255 ends in `ProgramCounterOutOfBounds(256)` with no register written
and no event. -/
def Obligations.LoadSetsNamedRegister : Prop :=
  (∀ (r imm : Byte) (s : State), ∃ t, exec (.load r imm) s = .next t ∧
    t.readReg (regId r) = imm ∧ SameRegsExcept (regId r) s t ∧ SameMemory s t ∧ SameControl s t ∧
    t.trace = s.trace ++ [.load (regId r) imm imm]) ∧
  (∀ s : State, stepEnabled s = true → s.mem.byteAt s.pc = 0x01#8 →
    (s.pc ≤ 253 →
      step s = exec (.load (s.mem.byteAt (s.pc + 1)) (s.mem.byteAt (s.pc + 2))) { s with pc := s.pc + 3 }) ∧
    (s.pc = 254 ∨ s.pc = 255 → step s = .next s.faultedPastEnd))

/-- ADD (42_register_instructions.md R125): the destination receives the sum of the two old values modulo 256. -/
def Obligations.AddWritesWrappedSum : Prop :=
  (∀ (d src : Byte) (s : State), ∃ t, exec (.add d src) s = .next t ∧
    (t.readReg (regId d)).toNat = ((s.readReg (regId d)).toNat + (s.readReg (regId src)).toNat) % 256 ∧
    SameRegsExcept (regId d) s t ∧ SameMemory s t ∧ SameControl s t ∧
    t.trace = s.trace ++ [.add (regId d) (regId src) (t.readReg (regId d))]) ∧
  (∀ s : State, stepEnabled s = true → s.mem.byteAt s.pc = 0x02#8 →
    (s.pc ≤ 253 →
      step s = exec (.add (s.mem.byteAt (s.pc + 1)) (s.mem.byteAt (s.pc + 2))) { s with pc := s.pc + 3 }) ∧
    (s.pc = 254 ∨ s.pc = 255 → step s = .next s.faultedPastEnd))

/-- AND (42_register_instructions.md R130): the destination receives the bitwise AND of the two old values. -/
def Obligations.AndWritesBitwiseAnd : Prop :=
  (∀ (d src : Byte) (s : State), ∃ t, exec (.and d src) s = .next t ∧
    t.readReg (regId d) = s.readReg (regId d) &&& s.readReg (regId src) ∧
    SameRegsExcept (regId d) s t ∧ SameMemory s t ∧ SameControl s t ∧
    t.trace = s.trace ++ [.and (regId d) (regId src) (t.readReg (regId d))]) ∧
  (∀ s : State, stepEnabled s = true → s.mem.byteAt s.pc = 0x03#8 →
    (s.pc ≤ 253 →
      step s = exec (.and (s.mem.byteAt (s.pc + 1)) (s.mem.byteAt (s.pc + 2))) { s with pc := s.pc + 3 }) ∧
    (s.pc = 254 ∨ s.pc = 255 → step s = .next s.faultedPastEnd))

/-- OUT (43_control_and_observation.md R140): one event with the register's value, no mutation. -/
def Obligations.OutReportsRegisterOnly : Prop :=
  (∀ (r : Byte) (s : State), ∃ t, exec (.out r) s = .next t ∧
    SameRegs s t ∧ SameMemory s t ∧ SameControl s t ∧
    t.trace = s.trace ++ [.out (regId r) (s.readReg (regId r))]) ∧
  (∀ s : State, stepEnabled s = true → s.mem.byteAt s.pc = 0x04#8 →
    (s.pc ≤ 254 → step s = exec (.out (s.mem.byteAt (s.pc + 1))) { s with pc := s.pc + 2 }) ∧
    (s.pc = 255 → step s = .next s.faultedPastEnd))

/-- HLT (43_control_and_observation.md R145): running cleared, one event, registers and memory kept; at every address
of memory, 255 too; nothing resumes the run. -/
def Obligations.HltClearsRunningAndIsTerminal : Prop :=
  (∀ s : State, ∃ t, exec .hlt s = .next t ∧
    t.running = false ∧ t.pc = s.pc ∧ t.fault = s.fault ∧ SameRegs s t ∧ SameMemory s t ∧
    t.trace = s.trace ++ [.hlt] ∧ ∀ u, step t ≠ .next u) ∧
  (∀ s : State, stepEnabled s = true → s.mem.byteAt s.pc = 0xFF#8 → s.pc ≤ 255 →
    step s = exec .hlt { s with pc := s.pc + 1 })

/-- An unknown opcode (43_control_and_observation.md R150): one event, nothing else, and the byte after it is the next
opcode. -/
def Obligations.UnknownOpcodeReportsItselfOnly : Prop :=
  (∀ (op : Byte) (s : State), ∃ t, exec (.unknown op) s = .next t ∧
    SameRegs s t ∧ SameMemory s t ∧ SameControl s t ∧ t.trace = s.trace ++ [.unknown op]) ∧
  (∀ s : State, stepEnabled s = true → s.mem.byteAt s.pc ∉ definedOpcodes → s.pc ≤ 255 →
    step s = exec (.unknown (s.mem.byteAt s.pc)) { s with pc := s.pc + 1 })

/-- Destination and source the same register: both operands are that register's old value, so ADD doubles it modulo
256 and AND leaves it (70_reset_and_hazards.md R195). -/
def Obligations.SameRegisterOperandsAreItsOldValue : Prop :=
  ∀ (d src : Byte) (s : State), regId d = regId src →
    (∃ t, exec (.add d src) s = .next t ∧
      (t.readReg (regId d)).toNat = 2 * (s.readReg (regId d)).toNat % 256) ∧
    (∃ t, exec (.and d src) s = .next t ∧ t.readReg (regId d) = s.readReg (regId d))

/-! The step. -/

/-- A step runs the decoded instruction: where the bytes from the pc to the end of memory decode, an enabled step is
the meaning of that instruction in the state with the pc past it (R101, R103, R104). -/
def Obligations.StepRunsDecodedInstruction : Prop :=
  ∀ (s : State) (i : Instr) (rest : List Byte),
    stepEnabled s = true → decode s.bytesAhead = .ok (i, rest) →
    i.WellFormed ∧ step s = exec i { s with pc := s.pc + i.length }

/-- Where the bytes from the pc to the end of memory do not hold a whole instruction (at 256 there are none), an
enabled step leaves the record `ProgramCounterOutOfBounds(256)`, pc = 256, and nothing else changed: running stays
true, no register, no memory byte and no event is written (R161, R165, R167; D5 and D6: logs 6 and 8). -/
def Obligations.StepOnTruncatedInstructionFaults : Prop :=
  ∀ s : State, stepEnabled s = true → s.pc ≤ 256 → decode s.bytesAhead = .error .endOfBytes →
    step s = .next s.faultedPastEnd

/-- A step is enabled exactly when running is true and the fault record is none (41_engine_cycle.md R102). -/
def Obligations.StepIsEnabledExactlyWhileRunIsOn : Prop :=
  ∀ s : State, (∃ t, step s = .next t) ↔ (s.running = true ∧ s.fault = none)

/-- The names under which the model is stuck where the CORE has no step. The names are the model's choice (log 7). -/
def Obligations.StuckStatesAreNamed : Prop :=
  ∀ s : State,
    (s.running = false → step s = .fault .notRunning) ∧
    (∀ f, s.running = true → s.fault = some f → step s = .fault (.runFaulted f))

/-- No encoding is illegal and none traps: from every pc at which the longest instruction fits, an enabled step
completes without a fault, whatever the bytes; and an unknown opcode byte is a one-byte instruction that emits its
event and changes nothing else (30_encoding.md R67). -/
def Obligations.NoEncodingTraps : Prop :=
  (∀ s : State, stepEnabled s = true → s.pc ≤ 253 → ∃ t, step s = .next t ∧ t.fault = none) ∧
  (∀ s : State, stepEnabled s = true → s.pc < 256 → s.mem.byteAt s.pc ∉ definedOpcodes →
    step s = .next { s with pc := s.pc + 1, trace := s.trace ++ [.unknown (s.mem.byteAt s.pc)] })

/-! Whole-machine rules, over all instructions. -/

/-- No step writes memory, and memory is constant during a run (20_memory.md R42). -/
def Obligations.NoInstructionWritesMemory : Prop :=
  (∀ s t : State, step s = .next t → SameMemory s t) ∧
  (∀ (i : Instr) (s t : State), exec i s = .next t → SameMemory s t) ∧
  (∀ s : State, SameMemory s (run s))

/-- No instruction writes the running flag but HLT, which clears it (10_state.md R29). -/
def Obligations.OnlyHltWritesRunning : Prop :=
  (∀ (i : Instr) (s t : State), exec i s = .next t → t.running = (if i = .hlt then false else s.running)) ∧
  (∀ s t : State, step s = .next t →
    (t.running = false ↔ (s.pc < 256 ∧ s.mem.byteAt s.pc = 0xFF#8)))

/-- A step writes a register only at the opcodes of LOAD, ADD and AND, and then only the one its first operand byte
names (10_state.md R21, 42_register_instructions.md R135). -/
def Obligations.OnlyLoadAddAndWriteTheirDestination : Prop :=
  ∀ (s t : State) (q : Reg), step s = .next t →
    (s.mem.byteAt s.pc ∉ [0x01#8, 0x02#8, 0x03#8] ∨ q ≠ regId (s.mem.byteAt (s.pc + 1))) →
    t.readReg q = s.readReg q

/-- The pc moves by the length of the fetched instruction, stays in 0..256 and never wraps; on a fault it is 256
(10_state.md R26, the spec's inference; R24, its choice D4; log 5). -/
def Obligations.PcAdvancesByLengthAndNeverWraps : Prop :=
  ∀ s t : State, step s = .next t → s.pc ≤ 256 →
    (t.fault = none → t.pc = s.pc + opcodeLength (s.mem.byteAt s.pc)) ∧
    (t.fault ≠ none → t.pc = 256) ∧ s.pc ≤ t.pc ∧ t.pc ≤ 256

/-- An instruction that completes emits exactly one event, after those before it; one that faults emits none, and
leaves exactly the faulted state (41_engine_cycle.md R109 with D6, 60_exceptions.md R167, the spec's inference;
log 8). -/
def Obligations.CompletedStepEmitsOneEventFaultedStepNone : Prop :=
  ∀ s t : State, step s = .next t → s.pc ≤ 256 →
    (t.fault = none ∧ ∃ e, t.trace = s.trace ++ [e]) ∨ t = s.faultedPastEnd

/-- The trace is never read: with any other trace before it, a step gives the same state and appends the same events
to that trace, and a stuck step is stuck under the same name (60_exceptions.md R177). -/
def Obligations.TraceNeverInfluencesTheEngine : Prop :=
  ∀ (s : State) (tr : List Event),
    (∀ t, step s = .next t → ∃ es, t.trace = s.trace ++ es ∧
      step { s with trace := tr } = .next { t with trace := tr ++ es }) ∧
    (∀ r, step s = .fault r → step { s with trace := tr } = .fault r)

/-- A step depends on the bytes it fetches and on no other byte of memory: with any memory that agrees on the bytes of
the instruction at the pc, it gives the same state over that memory (20_memory.md sections 3 and 6). -/
def Obligations.StepReadsOnlyFetchedBytes : Prop :=
  ∀ (s t : State) (m : Memory),
    (∀ k, k < opcodeLength (s.mem.byteAt s.pc) → s.pc + k < 256 → m.byteAt (s.pc + k) = s.mem.byteAt (s.pc + k)) →
    step s = .next t → step { s with mem := m } = .next { t with mem := m }

/-- Every step keeps the model's invariant, from every state that meets it (its clauses: `State.Inv`). -/
def Obligations.StepKeepsInv : Prop :=
  ∀ s t : State, s.Inv → step s = .next t → t.Inv

/-! The run and the host. -/

/-- A run ends in one of two ways, which exclude each other: halted, and then HLT was the last event; or faulted with
`ProgramCounterOutOfBounds(256)` at pc = 256, and then HLT was never reported (41_engine_cycle.md section 3). From
every state, whatever its memory holds. The clauses on the HLT event rest on the spec's own choice D7 (log 9), the
record and `running` after a fault on its choice D5 (logs 6 and 8). -/
def Obligations.RunEndsHaltedOrFaulted : Prop :=
  ∀ s : State,
    ((run s).Halted ∧ (run s).trace.getLast? = some .hlt) ∨
    ((run s).Faulted ∧ (run s).pc = 256 ∧ Event.hlt ∉ (run s).trace)

/-- Every run ends after at most 257 steps: the run is what so many steps of the machine reach from run start, and no
step is enabled there (41_engine_cycle.md R108, the spec's inference; log 19). -/
def Obligations.RunTakesAtMost257Steps : Prop :=
  ∀ s : State, ∃ n, n ≤ 257 ∧
    Sys2Proof.core.run n (runStart s) = .next (run s) ∧ stepEnabled (run s) = false

/-- A load while no run is in progress copies from address 0, drops what lies past 255, leaves the rest of memory and
everything else as it was, and never fails (20_memory.md R43; the rest of memory is the spec's choice D10, log 12; the
condition on the host is D9, log 11). -/
def Obligations.LoaderCopiesFromZeroAndTruncates : Prop :=
  ∀ (bytes : List Byte) (s : State), stepEnabled s = false →
    ∃ t, hostAct (.load bytes) s = .next t ∧
      (∀ a, a < 256 → t.mem.byteAt a = (bytes[a]?).getD (s.mem.byteAt a)) ∧
      SameRegs s t ∧ SameControl s t ∧ t.trace = s.trace

/-- A preload while no run is in progress stores the low 8 bits of any integer in the named register and changes
nothing else (60_exceptions.md R178; the condition on the host is the spec's choice D9, log 11). -/
def Obligations.PreloadStoresLowEightBits : Prop :=
  ∀ (r : Reg) (v : Int) (s : State), stepEnabled s = false →
    ∃ t, hostAct (.preload r v) s = .next t ∧
      ((t.readReg r).toNat : Int) = v % 256 ∧ SameRegsExcept r s t ∧ SameMemory s t ∧ SameControl s t ∧
      t.trace = s.trace

/-- The host's run from any state with no run in progress ends, and the final state and its register snapshot can then
be read, with the memory the run started from (R111, R176, R178; D9 and D12: logs 11 and 14). -/
def Obligations.FinalStateIsReadableAfterRun : Prop :=
  ∀ s : State, stepEnabled s = false →
    ∃ t, hostAct .run s = .next t ∧ readFinalState t = some t ∧ finalSnapshot t = some t.regs ∧ SameMemory s t

/-- The final state is hidden before the first run: at construction, and after any load or preload where it was hidden
before (R178 gives the read only after a run ends; how the model tells a CORE that never ran is log 11). -/
def Obligations.FinalStateIsHiddenBeforeFirstRun : Prop :=
  readFinalState State.reset = none ∧ finalSnapshot State.reset = none ∧
  ∀ (a : HostAction) (s t : State), a ≠ .run → hostAct a s = .next t → readFinalState s = none →
    readFinalState t = none ∧ finalSnapshot t = none

/-- In every state that meets the invariant the final state can be read exactly where a run has ended, in either of
its two ways: faulted, or halted with HLT as the last event (R30, R107, R111, R178; the fault record is D5, log 8, the
HLT event D7, log 9, the model's test log 11). -/
def Obligations.FinalStateIsReadableExactlyAfterRunEnds : Prop :=
  ∀ s : State, s.Inv →
    (readFinalState s = some s ↔ s.Faulted ∨ (s.Halted ∧ s.trace.getLast? = some .hlt)) ∧
    (readFinalState s = none ↔ ¬ (s.Faulted ∨ (s.Halted ∧ s.trace.getLast? = some .hlt)))

/-- The host has no move and no view while a run is in progress. The refusal is the model's reading of D9 and U9
(log 11). -/
def Obligations.HostIsRefusedDuringRun : Prop :=
  ∀ (a : HostAction) (s : State), stepEnabled s = true →
    hostAct a s = .refused .runInProgress ∧ readFinalState s = none ∧ finalSnapshot s = none

/-- Every move of the host keeps the model's invariant, a whole run among them. -/
def Obligations.HostActionsKeepInv : Prop :=
  ∀ (a : HostAction) (s t : State), s.Inv → hostAct a s = .next t → t.Inv

/-- The word a table row stands for, placed where the next step fetches, is the instruction that step runs, from every
state (the placement is the model's, log 15). -/
def Obligations.PlacedTableWordIsTheNextInstruction : Prop :=
  ∀ (s : State) (nbits w : Nat), ∃ i,
    decodeTableWord nbits w = some i ∧
    step (s.withFetchWord nbits w) =
      exec i { s.withFetchWord nbits w with pc := (s.withFetchWord nbits w).pc + i.length }
end

