-- ==== Sys2Proof/Laws/Memory.lean ====
section
/-! SUPPORT. The memory operations: reading after a write, and the canonical form that every one of them keeps. -/

namespace Sys2Proof.Machine

/-- A lookup after an insertion. -/
theorem Memory.lookup_insert (m : Memory) (a k : Nat) (v : Byte) :
    (m.insert a v).lookup k = if a = k then some v else m.lookup k := by
  induction m with
  | nil => simp [Memory.insert, Memory.lookup]
  | cons c m ih =>
    obtain ⟨b, w⟩ := c
    simp only [Memory.insert]
    by_cases hlt : a < b
    · simp [hlt, Memory.lookup]
    · by_cases he : a = b
      · subst he
        simp only [Nat.lt_irrefl, if_false, if_true, Memory.lookup]
        split <;> rfl
      · simp only [hlt, he, if_false, Memory.lookup, ih]
        split <;> split <;> first | rfl | omega

/-- A byte read after a write (R43, R53). -/
theorem Memory.byteAt_write (m : Memory) (a : Addr) (v : Byte) (k : Nat) :
    (m.write a v).byteAt k = if a.val = k then v else m.byteAt k := by
  simp only [Memory.byteAt, Memory.write, Memory.lookup_insert]
  by_cases h : a.val = k <;> simp [h]

/-- A byte read after a copy: the copied byte where the copy reaches, else the byte as it was (R43, R44). -/
theorem Memory.byteAt_copyFrom (bs : List Byte) (i : Nat) (m : Memory) (a : Nat) :
    (Memory.copyFrom i bs m).byteAt a =
      if i ≤ a ∧ a < memSize then (bs[a - i]?).getD (m.byteAt a) else m.byteAt a := by
  induction bs generalizing i m with
  | nil => simp [Memory.copyFrom]
  | cons b bs ih =>
    simp only [Memory.copyFrom]
    by_cases hi : i < memSize
    · simp only [hi, dite_true, ih, Memory.byteAt_write]
      by_cases hia : i = a
      · subst hia
        simp [hi]
      · by_cases hle : i + 1 ≤ a ∧ a < memSize
        · have hs : a - i = (a - (i + 1)) + 1 := by omega
          have hle' : i ≤ a ∧ a < memSize := ⟨by omega, hle.2⟩
          simp only [hle, hle', hia, hs, and_self, if_true, if_false, List.getElem?_cons_succ]
        · have hle' : ¬ (i ≤ a ∧ a < memSize) := by omega
          simp only [hle, hle', hia, if_false]
    · have hle : ¬ (i ≤ a ∧ a < memSize) := by omega
      simp only [hi, dite_false, hle, if_false]

/-- An insertion keeps the rising order from a bound that the address meets. -/
theorem Memory.wfFrom_insert (m : Memory) (lo a : Nat) (v : Byte) (hlo : lo ≤ a) (ha : a < memSize)
    (h : m.wfFrom lo = true) : (m.insert a v).wfFrom lo = true := by
  induction m generalizing lo with
  | nil => simp [Memory.insert, Memory.wfFrom, hlo, ha]
  | cons c m ih =>
    obtain ⟨b, w⟩ := c
    simp only [Memory.wfFrom, Bool.and_eq_true, decide_eq_true_eq] at h
    obtain ⟨⟨h1, h2⟩, h3⟩ := h
    simp only [Memory.insert]
    split
    · rename_i hlt
      simp only [Memory.wfFrom, Bool.and_eq_true, decide_eq_true_eq]
      exact ⟨⟨hlo, ha⟩, ⟨hlt, h2⟩, h3⟩
    · split
      · rename_i he
        subst he
        simp only [Memory.wfFrom, Bool.and_eq_true, decide_eq_true_eq]
        exact ⟨⟨hlo, ha⟩, h3⟩
      · simp only [Memory.wfFrom, Bool.and_eq_true, decide_eq_true_eq]
        exact ⟨⟨h1, h2⟩, ih (b + 1) (by omega) h3⟩

/-- A write keeps the canonical form. -/
theorem Memory.wf_write (m : Memory) (a : Addr) (v : Byte) (h : m.wf = true) : (m.write a v).wf = true :=
  Memory.wfFrom_insert m 0 a.val v (Nat.zero_le _) a.isLt h

/-- A copy keeps the canonical form. -/
theorem Memory.wf_copyFrom (bs : List Byte) (i : Nat) (m : Memory) (h : m.wf = true) :
    (Memory.copyFrom i bs m).wf = true := by
  induction bs generalizing i m with
  | nil => exact h
  | cons b bs ih =>
    simp only [Memory.copyFrom]
    split
    · exact ih _ _ (Memory.wf_write m _ b h)
    · exact h

/-- Memory at construction is in canonical form. -/
theorem Memory.wf_reset : State.reset.mem.wf = true := rfl

/-- A placed table word keeps the canonical form. -/
theorem Memory.wf_placeWord (s : State) (nbits w : Nat) (h : s.mem.wf = true) :
    (placeWord s nbits w).mem.wf = true := Memory.wf_copyFrom _ _ _ h

end Sys2Proof.Machine
end

