-- ==== Sys2Proof/Laws/Operands.lean ====
section
/-! SUPPORT. What the mask, the register-id table and the ALU answer, once each. -/

namespace Sys2Proof.Machine

/-- The mask as an unsigned integer: v modulo 256 in [0,255] (G1). -/
theorem unsigned_mask8 (v : Int) : unsigned (mask8 v) = v % 256 := by
  simp only [unsigned, mask8, BitVec.toNat_ofInt]
  omega

/-- The mask changes no byte (R22). -/
@[simp] theorem mask8_unsigned (b : Byte) : mask8 (unsigned b) = b := by
  apply BitVec.eq_of_toNat_eq
  have h := unsigned_mask8 (unsigned b)
  have hb := b.isLt
  simp only [unsigned] at h ⊢
  omega

/-- The mask of a natural number. -/
theorem mask8_natCast (n : Nat) : mask8 (n : Int) = BitVec.ofNat 8 n := by
  simp [mask8, BitVec.ofInt_natCast]

/-- The register-id byte of a register names it. -/
@[simp] theorem regId_regIdByte (r : Reg) : regId (regIdByte r) = r := by
  cases r <;> rfl

/-- The ALU in terms of machine words: the wraparound of the mask is the wraparound of bit vectors. -/
theorem alu_eq (op : AluOp) (a b : Byte) :
    alu op a b =
      match op with
      | .add => a + b
      | .sub => a - b
      | .and => a &&& b
      | .or => a ||| b
      | .not => ~~~ a := by
  have ha := a.isLt
  have hb := b.isLt
  apply BitVec.eq_of_toNat_eq
  have hm := unsigned_mask8 (aluNative op a b)
  cases op
  · simp only [alu, aluNative, unsigned, BitVec.toNat_add] at hm ⊢
    omega
  · simp only [alu, aluNative, unsigned, BitVec.toNat_sub] at hm ⊢
    omega
  · simp only [alu, aluNative, mask8_natCast, BitVec.toNat_ofNat, BitVec.toNat_and]
    exact Nat.mod_eq_of_lt (Nat.lt_of_le_of_lt Nat.and_le_left ha)
  · simp only [alu, aluNative, mask8_natCast, BitVec.toNat_ofNat, BitVec.toNat_or]
    exact Nat.mod_eq_of_lt (Nat.or_lt_two_pow ha hb)
  · have hn : (~~~ (unsigned a) : Int) = - unsigned a - 1 := by
      show Int.not _ = _
      simp only [unsigned, Int.not]
      omega
    simp only [aluNative, hn] at hm
    simp only [alu, aluNative, hn, BitVec.toNat_not]
    simp only [unsigned] at hm ⊢
    omega

end Sys2Proof.Machine
end

