-- ==== Sys2Proof/Laws/PerInstr.lean ====
section
/-! SUPPORT. The families of statements made per instruction (LAWS.json): one lemma per constructor of `Instr`. -/

namespace Sys2Proof.Laws

/-- An encoding is as long as its instruction, and its first byte alone tells that length (30_encoding.md R60, R66). -/
def EncodedLength.Statement (i : Instr) : Prop :=
  i.WellFormed → (encode i).length = i.length ∧ opcodeLength ((encode i).headD 0#8) = i.length

/-- The row of an opcode byte that no other row matches (R65). -/
theorem opcodeRow_of_wellFormed_unknown {op : Byte} (h : (Instr.unknown op).WellFormed) :
    opcodeRow op = .unknown := by
  simp only [Instr.WellFormed, Instr.wellFormed, definedOpcodes, List.contains_cons, List.contains_nil,
    Bool.or_false, Bool.not_eq_true', Bool.or_eq_false_iff, beq_eq_false_iff_ne, ne_eq] at h
  obtain ⟨h1, h2, h3, h4, h5⟩ := h
  simp only [opcodeRow, h1, h2, h3, h4, h5, if_false]

theorem EncodedLength.load (r imm : Byte) : EncodedLength.Statement (.load r imm) := fun _ => ⟨rfl, rfl⟩

theorem EncodedLength.add (d s : Byte) : EncodedLength.Statement (.add d s) := fun _ => ⟨rfl, rfl⟩

theorem EncodedLength.and (d s : Byte) : EncodedLength.Statement (.and d s) := fun _ => ⟨rfl, rfl⟩

theorem EncodedLength.out (r : Byte) : EncodedLength.Statement (.out r) := fun _ => ⟨rfl, rfl⟩

theorem EncodedLength.hlt : EncodedLength.Statement .hlt := fun _ => ⟨rfl, rfl⟩

theorem EncodedLength.unknown (op : Byte) : EncodedLength.Statement (.unknown op) := fun h =>
  ⟨rfl, by
    show opcodeLength op = 1
    simp only [opcodeLength, opcodeRow_of_wellFormed_unknown h]⟩

end Sys2Proof.Laws
end

