-- ==== Sys2Proof/Laws/State.lean ====
section
/-! SUPPORT. One lemma per field per update of the state, so that no proof unfolds an update. -/

namespace Sys2Proof.Machine

@[simp] theorem State.setRunning_regs (v : Bool) (s : State) : (s.setRunning v).regs = s.regs := rfl
@[simp] theorem State.setRunning_pc (v : Bool) (s : State) : (s.setRunning v).pc = s.pc := rfl
@[simp] theorem State.setRunning_running (v : Bool) (s : State) : (s.setRunning v).running = v := rfl
@[simp] theorem State.setRunning_fault (v : Bool) (s : State) : (s.setRunning v).fault = s.fault := rfl
@[simp] theorem State.setRunning_mem (v : Bool) (s : State) : (s.setRunning v).mem = s.mem := rfl
@[simp] theorem State.setRunning_trace (v : Bool) (s : State) : (s.setRunning v).trace = s.trace := rfl

@[simp] theorem State.writeReg_regs (r : Reg) (v : Int) (s : State) : (s.writeReg r v).regs = s.regs.set r (mask8 v) := rfl
@[simp] theorem State.writeReg_pc (r : Reg) (v : Int) (s : State) : (s.writeReg r v).pc = s.pc := rfl
@[simp] theorem State.writeReg_running (r : Reg) (v : Int) (s : State) : (s.writeReg r v).running = s.running := rfl
@[simp] theorem State.writeReg_fault (r : Reg) (v : Int) (s : State) : (s.writeReg r v).fault = s.fault := rfl
@[simp] theorem State.writeReg_mem (r : Reg) (v : Int) (s : State) : (s.writeReg r v).mem = s.mem := rfl
@[simp] theorem State.writeReg_trace (r : Reg) (v : Int) (s : State) : (s.writeReg r v).trace = s.trace := rfl

@[simp] theorem State.emit_regs (e : Event) (s : State) : (s.emit e).regs = s.regs := rfl
@[simp] theorem State.emit_pc (e : Event) (s : State) : (s.emit e).pc = s.pc := rfl
@[simp] theorem State.emit_running (e : Event) (s : State) : (s.emit e).running = s.running := rfl
@[simp] theorem State.emit_fault (e : Event) (s : State) : (s.emit e).fault = s.fault := rfl
@[simp] theorem State.emit_mem (e : Event) (s : State) : (s.emit e).mem = s.mem := rfl
@[simp] theorem State.emit_trace (e : Event) (s : State) : (s.emit e).trace = s.trace ++ [e] := rfl

@[simp] theorem State.raise_regs (f : FaultRecord) (s : State) : (s.raise f).regs = s.regs := rfl
@[simp] theorem State.raise_pc (f : FaultRecord) (s : State) : (s.raise f).pc = s.pc := rfl
@[simp] theorem State.raise_running (f : FaultRecord) (s : State) : (s.raise f).running = s.running := rfl
@[simp] theorem State.raise_fault (f : FaultRecord) (s : State) : (s.raise f).fault = some f := rfl
@[simp] theorem State.raise_mem (f : FaultRecord) (s : State) : (s.raise f).mem = s.mem := rfl
@[simp] theorem State.raise_trace (f : FaultRecord) (s : State) : (s.raise f).trace = s.trace := rfl

@[simp] theorem runStart_regs (s : State) : (runStart s).regs = s.regs := rfl
@[simp] theorem runStart_pc (s : State) : (runStart s).pc = 0 := rfl
@[simp] theorem runStart_running (s : State) : (runStart s).running = true := rfl
@[simp] theorem runStart_fault (s : State) : (runStart s).fault = none := rfl
@[simp] theorem runStart_mem (s : State) : (runStart s).mem = s.mem := rfl
@[simp] theorem runStart_trace (s : State) : (runStart s).trace = [] := rfl

@[simp] theorem load_regs (bs : List Byte) (s : State) : (load bs s).regs = s.regs := rfl
@[simp] theorem load_pc (bs : List Byte) (s : State) : (load bs s).pc = s.pc := rfl
@[simp] theorem load_running (bs : List Byte) (s : State) : (load bs s).running = s.running := rfl
@[simp] theorem load_fault (bs : List Byte) (s : State) : (load bs s).fault = s.fault := rfl
@[simp] theorem load_mem (bs : List Byte) (s : State) : (load bs s).mem = Memory.copyFrom 0 bs s.mem := rfl
@[simp] theorem load_trace (bs : List Byte) (s : State) : (load bs s).trace = s.trace := rfl

@[simp] theorem placeWord_regs (s : State) (nbits w : Nat) : (placeWord s nbits w).regs = s.regs := rfl
@[simp] theorem placeWord_pc (s : State) (nbits w : Nat) : (placeWord s nbits w).pc = placeAddress s := rfl
@[simp] theorem placeWord_running (s : State) (nbits w : Nat) : (placeWord s nbits w).running = true := rfl
@[simp] theorem placeWord_fault (s : State) (nbits w : Nat) : (placeWord s nbits w).fault = none := rfl
@[simp] theorem placeWord_mem (s : State) (nbits w : Nat) : (placeWord s nbits w).mem = Memory.copyFrom (placeAddress s) (wordBytes nbits w) s.mem := rfl
@[simp] theorem placeWord_trace (s : State) (nbits w : Nat) : (placeWord s nbits w).trace = s.trace := rfl

@[simp] theorem RegFile.get_set_same (f : RegFile) (r : Reg) (v : Byte) : (f.set r v).get r = v := by
  cases r <;> rfl

theorem RegFile.get_set_of_ne (f : RegFile) {q r : Reg} (v : Byte) (h : q ≠ r) : (f.set r v).get q = f.get q := by
  cases q <;> cases r <;> first | rfl | exact absurd rfl h

@[simp] theorem RegFile.set_get (f : RegFile) (r : Reg) : f.set r (f.get r) = f := by
  cases r <;> rfl

@[simp] theorem State.readReg_setRunning (v : Bool) (s : State) (q : Reg) :
    (s.setRunning v).readReg q = s.readReg q := rfl

@[simp] theorem State.readReg_emit (e : Event) (s : State) (q : Reg) : (s.emit e).readReg q = s.readReg q := rfl

@[simp] theorem State.readReg_raise (f : FaultRecord) (s : State) (q : Reg) :
    (s.raise f).readReg q = s.readReg q := rfl

@[simp] theorem State.readReg_writeReg_same (r : Reg) (v : Int) (s : State) :
    (s.writeReg r v).readReg r = mask8 v := RegFile.get_set_same ..

theorem State.readReg_writeReg_of_ne {q r : Reg} (v : Int) (s : State) (h : q ≠ r) :
    (s.writeReg r v).readReg q = s.readReg q := RegFile.get_set_of_ne s.regs _ h

end Sys2Proof.Machine
end

