-- ==== Sys2Proof/Laws/Step.lean ====
section
/-! SUPPORT. What a fetch, a decode, a meaning and a step can do, said once each: the lemmas the proofs cite instead
of unfolding the machine. -/

namespace Sys2Proof.Machine

/-- A memory read that answers a byte (R41). -/
theorem memRead_ok {addr : Int} {s : State} {b : Byte} (h : memRead addr s = .ok b) :
    0 ≤ addr ∧ addr < 256 ∧ b = s.mem.byteAt addr.toNat := by
  unfold memRead at h
  split at h
  · cases h
  · cases h
    exact ⟨by omega, by omega, rfl⟩

/-- A fetch below the memory size, as an equation (R45). -/
theorem fetch_of_lt {s : State} (h : s.pc < 256) :
    fetch s = .ok (s.mem.byteAt s.pc, { s with pc := s.pc + 1 }) := by
  have h1 : ¬ memSize ≤ s.pc := Nat.not_le.mpr h
  have h2 : ¬ ((s.pc : Int) < 0 ∨ 256 ≤ (s.pc : Int)) := by omega
  simp only [fetch, memRead, h1, h2, if_false, Int.toNat_natCast]

/-- A fetch at or past the memory size, as an equation (R45). -/
theorem fetch_of_ge {s : State} (h : 256 ≤ s.pc) :
    fetch s = .error { s with fault := some (.programCounterOutOfBounds s.pc) } := by
  have h1 : memSize ≤ s.pc := h
  simp [fetch, h1, State.raise]

/-- The decoder over any byte source, by the row of the opcode byte (R103, R104). -/
theorem decodeFrom_of_ok {σ ε : Type} {next : σ → Except ε (Byte × σ)} {s s' : σ} {op : Byte}
    (h : next s = .ok (op, s')) :
    decodeFrom next s =
      match opcodeRow op with
      | .load => takeTwoOperands next .load s'
      | .add => takeTwoOperands next .add s'
      | .and => takeTwoOperands next .and s'
      | .out => takeOperand next .out s'
      | .hlt => .ok (.hlt, s')
      | .unknown => .ok (.unknown op, s') := by
  cases hrow : opcodeRow op <;> simp only [decodeFrom, h, hrow]

/-- The instruction that an opcode byte and two bytes after it name; a row that calls for fewer ignores the rest. -/
def instrOf (op b1 b2 : Byte) : Instr :=
  match opcodeRow op with
  | .load => .load b1 b2
  | .add => .add b1 b2
  | .and => .and b1 b2
  | .out => .out b1
  | .hlt => .hlt
  | .unknown => .unknown op

/-- An instruction is as long as its opcode says (R66). -/
theorem instrOf_length (op b1 b2 : Byte) : (instrOf op b1 b2).length = opcodeLength op := by
  unfold instrOf opcodeLength
  cases opcodeRow op <;> rfl

/-- Every length is 1, 2 or 3 (R60). -/
theorem opcodeLength_bounds (op : Byte) : 1 ≤ opcodeLength op ∧ opcodeLength op ≤ 3 := by
  unfold opcodeLength
  cases opcodeRow op <;> simp

/-- The fetch of an instruction that lies wholly in memory (R61, R104). -/
theorem fetchInstr_of_fits {s : State} (h : s.pc + opcodeLength (s.mem.byteAt s.pc) ≤ 256) :
    fetchInstr s =
      .ok (instrOf (s.mem.byteAt s.pc) (s.mem.byteAt (s.pc + 1)) (s.mem.byteAt (s.pc + 2)),
        { s with pc := s.pc + opcodeLength (s.mem.byteAt s.pc) }) := by
  have hb := opcodeLength_bounds (s.mem.byteAt s.pc)
  rw [fetchInstr, decodeFrom_of_ok (fetch_of_lt (by omega : s.pc < 256))]
  generalize hop : s.mem.byteAt s.pc = op at *
  unfold instrOf opcodeLength at *
  cases hrow : opcodeRow op <;> rw [hrow] at h <;> simp only at h ⊢
  all_goals
    first
      | (simp only [takeTwoOperands, takeOperand]
         rw [fetch_of_lt (by simp only; omega)]
         simp only
         rw [fetch_of_lt (by simp only; omega)])
      | (simp only [takeOperand]
         rw [fetch_of_lt (by simp only; omega)])

/-- The fetch of an instruction that runs past the end of memory, or of one that begins there (R161, R167). -/
theorem fetchInstr_of_truncated {s : State} (hpc : s.pc ≤ 256)
    (h : 256 < s.pc + opcodeLength (s.mem.byteAt s.pc) ∨ s.pc = 256) :
    fetchInstr s = .error s.faultedPastEnd := by
  by_cases h256 : s.pc = 256
  · simp only [fetchInstr, decodeFrom, fetch_of_ge (by omega : 256 ≤ s.pc), State.faultedPastEnd, h256]
  · replace h : 256 < s.pc + opcodeLength (s.mem.byteAt s.pc) := by omega
    rw [fetchInstr, decodeFrom_of_ok (fetch_of_lt (by omega : s.pc < 256))]
    generalize hop : s.mem.byteAt s.pc = op at *
    unfold opcodeLength at h
    have h254 : s.pc = 255 ∨ s.pc = 254 ∨ s.pc < 254 := by omega
    cases hrow : opcodeRow op <;> rw [hrow] at h <;> simp only at h ⊢
    all_goals
      rcases h254 with h' | h' | h' <;> first | omega | skip
    all_goals
      simp only [takeTwoOperands, takeOperand]
      first
        | (rw [fetch_of_ge (by simp only; omega)]; simp [State.faultedPastEnd, h'])
        | (rw [fetch_of_lt (by simp only; omega)]
           simp only
           rw [fetch_of_ge (by simp only; omega)]
           simp [State.faultedPastEnd, h'])

/-- The fetch of an instruction from a pc past the range (no run reaches one) leaves the pc as it is (R45). -/
theorem fetchInstr_of_gt {s : State} (h : 256 ≤ s.pc) :
    fetchInstr s = .error { s with fault := some (.programCounterOutOfBounds s.pc) } := by
  simp only [fetchInstr, decodeFrom, fetch_of_ge h]

/-- The event an instruction emits in a state whose bytes have been fetched (R175). -/
def eventOf (i : Instr) (s : State) : Event :=
  match i with
  | .load r imm => .load (regId r) imm imm
  | .add d src => .add (regId d) (regId src) (alu .add (s.readReg (regId d)) (s.readReg (regId src)))
  | .and d src => .and (regId d) (regId src) (alu .and (s.readReg (regId d)) (s.readReg (regId src)))
  | .out r => .out (regId r) (s.readReg (regId r))
  | .hlt => .hlt
  | .unknown op => .unknown op

/-- The register file an instruction leaves (R135). -/
def regsAfter (i : Instr) (s : State) : RegFile :=
  match i with
  | .load r imm => s.regs.set (regId r) imm
  | .add d src => s.regs.set (regId d) (alu .add (s.readReg (regId d)) (s.readReg (regId src)))
  | .and d src => s.regs.set (regId d) (alu .and (s.readReg (regId d)) (s.readReg (regId src)))
  | .out _ => s.regs
  | .hlt => s.regs
  | .unknown _ => s.regs

/-- The running flag an instruction leaves (R29). -/
def runningAfter (i : Instr) (s : State) : Bool :=
  match i with
  | .hlt => false
  | _ => s.running

/-- Everything a meaning does: registers, the running flag and one event; nothing else. -/
theorem exec_eq (i : Instr) (s : State) :
    exec i s =
      .next { s with regs := regsAfter i s, running := runningAfter i s, trace := s.trace ++ [eventOf i s] } := by
  cases i <;>
    simp [exec, execLoad, execAdd, execAnd, execOut, execHlt, execUnknown, aluIntoRegister, regsAfter, runningAfter,
      eventOf, State.writeReg, State.emit, State.setRunning, State.readReg]

/-- A step where the CORE has one (R102, R103). -/
theorem step_of_enabled {s : State} (h : stepEnabled s = true) :
    step s = match fetchInstr s with
      | .error t => .next t
      | .ok (i, t) => exec i t := by
  simp only [stepEnabled, Bool.and_eq_true, Option.isNone_iff_eq_none] at h
  cases hf : fetchInstr s <;> simp only [step, noStepReason, h.1, h.2, if_true, hf]

/-- A step that answers a next state was enabled. -/
theorem stepEnabled_of_step_next {s t : State} (h : step s = .next t) : stepEnabled s = true := by
  unfold step noStepReason at h
  cases hr : s.running <;> cases hf : s.fault <;> simp_all [stepEnabled]

/-- Everything a step that answers a next state can do: its instruction fits in memory and runs, or the pc meets the
end of memory and the fault is recorded, or the pc was past the range (which no run reaches). -/
theorem step_next_cases {s t : State} (h : step s = .next t) :
    s.running = true ∧ s.fault = none ∧
    ((∃ i b1 b2, s.pc + opcodeLength (s.mem.byteAt s.pc) ≤ 256 ∧
        b1 = s.mem.byteAt (s.pc + 1) ∧ b2 = s.mem.byteAt (s.pc + 2) ∧ i = instrOf (s.mem.byteAt s.pc) b1 b2 ∧
        exec i { s with pc := s.pc + opcodeLength (s.mem.byteAt s.pc) } = .next t) ∨
      (s.pc ≤ 256 ∧ 256 < s.pc + opcodeLength (s.mem.byteAt s.pc) ∧ t = s.faultedPastEnd) ∨
      (256 < s.pc ∧ t = { s with fault := some (.programCounterOutOfBounds s.pc) })) := by
  have he := stepEnabled_of_step_next h
  rw [step_of_enabled he] at h
  simp only [stepEnabled, Bool.and_eq_true, Option.isNone_iff_eq_none] at he
  refine ⟨he.1, he.2, ?_⟩
  have hb := opcodeLength_bounds (s.mem.byteAt s.pc)
  by_cases hgt : 256 < s.pc
  · rw [fetchInstr_of_gt (by omega)] at h
    cases h
    exact .inr (.inr ⟨hgt, rfl⟩)
  · by_cases hfit : s.pc + opcodeLength (s.mem.byteAt s.pc) ≤ 256
    · rw [fetchInstr_of_fits hfit] at h
      exact .inl ⟨_, _, _, hfit, rfl, rfl, rfl, h⟩
    · rw [fetchInstr_of_truncated (by omega) (by omega)] at h
      cases h
      exact .inr (.inl ⟨by omega, by omega, rfl⟩)

end Sys2Proof.Machine
end

