-- ==== Sys2Proof/Laws/Runner.lean ====
section
/-! SUPPORT. The run loop and the host's moves: the induction over a run, packaged once, and what a move can do. -/

namespace Sys2Proof.Machine

/-- What every step keeps, every run loop keeps. -/
theorem runLoop_keeps {P : State → Prop} (hstep : ∀ s t, P s → step s = .next t → P t) (n : Nat) {s : State}
    (h : P s) : P (runLoop n s) := by
  induction n generalizing s with
  | zero => exact h
  | succ n ih =>
    simp only [runLoop]
    split
    · rename_i t ht
      exact ih (hstep s t h ht)
    · exact h
    · exact h

/-- Where no step answers a next state the loop stays. -/
theorem runLoop_of_stuck {s : State} (h : ∀ t, step s ≠ .next t) (n : Nat) : runLoop n s = s := by
  cases n with
  | zero => rfl
  | succ n =>
    simp only [runLoop]
    split
    · rename_i t ht
      exact absurd ht (h t)
    · rfl
    · rfl

/-- The final state is read exactly where a run has ended, and it is the state itself (R111, R178). -/
theorem readFinalState_eq_some {s t : State} : readFinalState s = some t ↔ runEnded s = true ∧ t = s := by
  unfold readFinalState
  cases h : runEnded s
  · simp
  · simp only [if_true, Option.some.injEq, true_and]
    exact eq_comm

/-- A run that has ended is not in progress (R102, R107). -/
theorem stepEnabled_of_runEnded {s : State} (h : runEnded s = true) : stepEnabled s = false := by
  cases hr : s.running <;> cases hf : s.fault <;> simp_all [runEnded, stepEnabled]

/-- A move of the host that answers a next state: no run was in progress, and it is one of the three moves (R178). -/
theorem hostAct_next_cases {a : HostAction} {s t : State} (h : hostAct a s = .next t) :
    stepEnabled s = false ∧
      ((∃ bs, a = .load bs ∧ t = load bs s) ∨ (∃ r v, a = .preload r v ∧ t = s.writeReg r v) ∨
        (a = .run ∧ t = run s)) := by
  unfold hostAct at h
  cases he : stepEnabled s
  · refine ⟨rfl, ?_⟩
    cases a <;> simp only [he, Bool.false_eq_true, if_false, Host.Outcome.next.injEq] at h
    · exact .inl ⟨_, rfl, h.symm⟩
    · exact .inr (.inl ⟨_, _, rfl, h.symm⟩)
    · exact .inr (.inr ⟨rfl, h.symm⟩)
  · simp [he] at h

end Sys2Proof.Machine
end

