-- ==== Sys2Proof/Tests/Slice0.lean ====
section
/-! SUPPORT. Tests: the decoder on words written out from the spec's encodings, one step each of the spec's vectors
(95_test_vectors.md; expected values are the spec's), and a witness for the hypotheses of each statement. -/

namespace Sys2Proof.Tests

open Sys2Proof Sys2Proof.Machine

/-- A state with a run in progress, the given bytes at the pc and the given registers. -/
def running (pc : Nat) (bytes : List Byte) (a b c d : Byte) : State :=
  { regs := ⟨a, b, c, d⟩, pc := pc, running := true, fault := none, mem := Memory.copyFrom pc bytes [], trace := [] }

/-- A state whose run ended by HLT with the given pc. -/
def halted (pc : Nat) : State :=
  { regs := ⟨1#8, 2#8, 3#8, 4#8⟩, pc := pc, running := false, fault := none, mem := [(0, 0xFF#8)], trace := [.hlt] }

/-- The next state of an outcome, if it has one. -/
def nextOf (o : Host.Outcome State Fault Refusal) : Option State :=
  match o with
  | .next s => some s
  | .fault _ => none
  | .refused _ => none

/-- The fields a vector lists: registers, pc, running, fault, trace. -/
def seen (o : Host.Outcome State Fault Refusal) :
    Option (RegFile × Nat × Bool × Option FaultRecord × List Event) :=
  (nextOf o).map fun s => (s.regs, s.pc, s.running, s.fault, s.trace)

/-! Well-formedness: the one check refuses every opcode that has a row of its own (R65). -/

theorem test_wellFormed_refuses_defined_opcodes :
    (Instr.unknown 0x01#8).wellFormed = false ∧ (Instr.unknown 0x02#8).wellFormed = false ∧
    (Instr.unknown 0x03#8).wellFormed = false ∧ (Instr.unknown 0x04#8).wellFormed = false ∧
    (Instr.unknown 0xFF#8).wellFormed = false := by decide

theorem test_wellFormed_admits_unknown_opcodes :
    (Instr.unknown 0x00#8).wellFormed = true ∧ (Instr.unknown 0x05#8).wellFormed = true ∧
    (Instr.unknown 0xFE#8).wellFormed = true := by decide

/-! Decoding: words written out bit by bit from opcode_table.json's encodings, third byte leftmost. -/

theorem test_decode_load : decodeTableWord 24 0b011111110000001000000001 = some (.load 2#8 0x7F#8) := by decide
theorem test_decode_add : decodeTableWord 24 0b000000010000011100000010 = some (.add 7#8 1#8) := by decide
theorem test_decode_and : decodeTableWord 24 0b000000110000001000000011 = some (.and 2#8 3#8) := by decide
theorem test_decode_out : decodeTableWord 16 0b0110001100000100 = some (.out 0x63#8) := by decide
theorem test_decode_hlt : decodeTableWord 8 0b11111111 = some .hlt := by decide
theorem test_decode_unknown : decodeTableWord 8 0b00000101 = some (.unknown 5#8) := by decide

/-- The bytes of the source's end-to-end program (W10) decode with lengths 3, 3, 3, 2, 1 (C1). -/
theorem test_decode_keeps_the_rest :
    decode [0x01#8, 0x01#8, 20#8, 0x02#8, 0x00#8, 0x01#8] = .ok (.load 1#8 20#8, [0x02#8, 0x00#8, 0x01#8]) := rfl

theorem test_decode_rejects_truncated :
    decode [0x01#8, 0x00#8] = .error .endOfBytes ∧ decode [0x04#8] = .error .endOfBytes ∧
    decode [] = .error .endOfBytes := ⟨rfl, rfl, rfl⟩

/-! Register ids and the ALU: V00 to V05, V50 to V66, W1 to W3. -/

theorem test_regId : regId 9#8 = .A ∧ regId 4#8 = .A ∧ regId 0xFF#8 = .A ∧ regId 3#8 = .D := by decide

theorem test_alu_add : alu .add 200#8 100#8 = 44#8 ∧ alu .add 255#8 255#8 = 254#8 := by decide
theorem test_alu_sub : alu .sub 5#8 10#8 = 251#8 ∧ alu .sub 0#8 255#8 = 1#8 := by decide
theorem test_alu_and_or : alu .and 0xAA#8 0x55#8 = 0#8 ∧ alu .or 0xA0#8 0x0A#8 = 0xAA#8 := by decide
theorem test_alu_not : alu .not 0#8 1#8 = 255#8 ∧ alu .not 0x5A#8 1#8 = 0xA5#8 := by decide

/-- V46 and V47: a preload stores the low 8 bits. -/
theorem test_mask8 : mask8 300 = 44#8 ∧ mask8 (-1) = 255#8 := by decide

/-! One step each: the vectors of 95_test_vectors.md section 2.3 and 2.4. -/

/-- V12. -/
theorem test_step_load :
    seen (step (running 10 [0x01#8, 0x03#8, 0x00#8] 0#8 0#8 0#8 0x33#8)) =
      some (⟨0#8, 0#8, 0#8, 0#8⟩, 13, true, none, [.load .D 0#8 0#8]) := by decide

/-- V11: an out-of-table register id loads A. -/
theorem test_step_load_default :
    seen (step (running 0 [0x01#8, 0x09#8, 0x05#8] 0#8 0#8 0#8 0#8)) =
      some (⟨5#8, 0#8, 0#8, 0#8⟩, 3, true, none, [.load .A 5#8 5#8]) := by decide

/-- V18: the source byte 0xFE names A, the sum wraps to 0. -/
theorem test_step_add :
    seen (step (running 0 [0x02#8, 0x01#8, 0xFE#8] 0x80#8 0x80#8 0#8 0#8)) =
      some (⟨0x80#8, 0#8, 0#8, 0#8⟩, 3, true, none, [.add .B .A 0#8]) := by decide

/-- V16: one register as both operands. -/
theorem test_step_add_same :
    seen (step (running 0 [0x02#8, 0x00#8, 0x00#8] 200#8 0#8 0#8 0#8)) =
      some (⟨144#8, 0#8, 0#8, 0#8⟩, 3, true, none, [.add .A .A 144#8]) := by decide

/-- V19, the source's W11. -/
theorem test_step_and :
    seen (step (running 0 [0x03#8, 0x00#8, 0x01#8] 12#8 10#8 0#8 0#8)) =
      some (⟨8#8, 10#8, 0#8, 0#8⟩, 3, true, none, [.and .A .B 8#8]) := by decide

/-- V23. -/
theorem test_step_out :
    seen (step (running 0 [0x04#8, 0x63#8] 7#8 0#8 0#8 9#8)) =
      some (⟨7#8, 0#8, 0#8, 9#8⟩, 2, true, none, [.out .A 7#8]) := by decide

/-- V25: HLT in the last byte of memory. -/
theorem test_step_hlt :
    seen (step (running 255 [0xFF#8] 1#8 0#8 0#8 0#8)) =
      some (⟨1#8, 0#8, 0#8, 0#8⟩, 256, false, none, [.hlt]) := by decide

/-- V27: the bytes after an unknown opcode are not its operands. -/
theorem test_step_unknown :
    seen (step (running 0 [0x05#8, 0x01#8, 0x02#8] 0#8 0#8 0#8 0#8)) =
      some (⟨0#8, 0#8, 0#8, 0#8⟩, 1, true, none, [.unknown 5#8]) := by decide

/-- V31: an opcode fetch at 256. -/
theorem test_step_fetch_past_end :
    seen (step (running 256 [] 3#8 0#8 0#8 0#8)) =
      some (⟨3#8, 0#8, 0#8, 0#8⟩, 256, true, some (.programCounterOutOfBounds 256), []) := by decide

/-- V33: LOAD's immediate fetch at 256 writes no register. -/
theorem test_step_load_truncated :
    seen (step (running 254 [0x01#8, 0x00#8] 3#8 0#8 0#8 0#8)) =
      some (⟨3#8, 0#8, 0#8, 0#8⟩, 256, true, some (.programCounterOutOfBounds 256), []) := by decide

/-! The host and the notation. -/

/-- V42: a short load keeps the bytes past it. -/
theorem test_load_keeps_rest :
    (load [0x04#8, 0x00#8] (running 0 [0x01#8, 0x00#8, 0x05#8, 0xFF#8] 0#8 0#8 0#8 0#8)).mem =
      [(0, 0x04#8), (1, 0x00#8), (2, 0x05#8), (3, 0xFF#8)] := by decide

/-- A table word placed after reset is the first instruction to run. -/
theorem test_withFetchWord_runs :
    seen (step (State.reset.withFetchWord 24 0x0A0001)) =
      some (⟨10#8, 0#8, 0#8, 0#8⟩, 3, true, none, [.load .A 10#8 10#8]) := by decide

/-- R178: the final state is read after a run, here one that HLT ends, and not at construction. -/
theorem test_readFinalState :
    readFinalState State.reset = none ∧
    (readFinalState (run (load [0xFF#8] State.reset))).map (fun s => (s.pc, s.running)) = some (1, false) := by decide

/-- R70: hexadecimal in either case, binary, and a numeral past 255 that is none. -/
theorem test_notation_numerals :
    parseImmediate "0xfE".toList = some 0xFE#8 ∧ parseImmediate "0b1010".toList = some 10#8 ∧
    parseImmediate "256".toList = none := by decide

theorem test_notation_reads : assembleLine "ADD reg7, A ; comment".toList = some (.add 7#8 0#8) := by decide

theorem test_notation_writes :
    lineText (.load 9#8 5#8) = "LOAD reg9, 5".toList ∧ lineText (.unknown 0xFE#8) = ".byte 0xFE".toList := by decide

/-- R176: a register holding 44 is reportable as `44` and `2C`. -/
theorem test_report : reportText 44#8 = ("44".toList, "2C".toList) := by decide

/-! Witnesses: concrete states and operands that meet the hypotheses of a statement, at the boundary of each clause. -/

/-- LOAD (and ADD, AND with their opcodes) at 253, 254 and 255. -/
theorem witness_LoadSetsNamedRegister :
    (stepEnabled (running 253 [0x01#8] 0#8 0#8 0#8 0#8) = true ∧
      (running 253 [0x01#8] 0#8 0#8 0#8 0#8).mem.byteAt 253 = 0x01#8) ∧
    (stepEnabled (running 254 [0x01#8] 0#8 0#8 0#8 0#8) = true ∧
      (running 254 [0x01#8] 0#8 0#8 0#8 0#8).mem.byteAt 254 = 0x01#8) ∧
    (stepEnabled (running 255 [0x01#8] 0#8 0#8 0#8 0#8) = true ∧
      (running 255 [0x01#8] 0#8 0#8 0#8 0#8).mem.byteAt 255 = 0x01#8) := by decide

theorem witness_AddWritesWrappedSum :
    (stepEnabled (running 253 [0x02#8] 0#8 0#8 0#8 0#8) = true ∧
      (running 253 [0x02#8] 0#8 0#8 0#8 0#8).mem.byteAt 253 = 0x02#8) ∧
    (stepEnabled (running 254 [0x02#8] 0#8 0#8 0#8 0#8) = true ∧
      (running 254 [0x02#8] 0#8 0#8 0#8 0#8).mem.byteAt 254 = 0x02#8) ∧
    (stepEnabled (running 255 [0x02#8] 0#8 0#8 0#8 0#8) = true ∧
      (running 255 [0x02#8] 0#8 0#8 0#8 0#8).mem.byteAt 255 = 0x02#8) := by decide

theorem witness_AndWritesBitwiseAnd :
    (stepEnabled (running 253 [0x03#8] 0#8 0#8 0#8 0#8) = true ∧
      (running 253 [0x03#8] 0#8 0#8 0#8 0#8).mem.byteAt 253 = 0x03#8) ∧
    (stepEnabled (running 254 [0x03#8] 0#8 0#8 0#8 0#8) = true ∧
      (running 254 [0x03#8] 0#8 0#8 0#8 0#8).mem.byteAt 254 = 0x03#8) ∧
    (stepEnabled (running 255 [0x03#8] 0#8 0#8 0#8 0#8) = true ∧
      (running 255 [0x03#8] 0#8 0#8 0#8 0#8).mem.byteAt 255 = 0x03#8) := by decide

theorem witness_OutReportsRegisterOnly :
    (stepEnabled (running 254 [0x04#8] 0#8 0#8 0#8 0#8) = true ∧
      (running 254 [0x04#8] 0#8 0#8 0#8 0#8).mem.byteAt 254 = 0x04#8) ∧
    (stepEnabled (running 255 [0x04#8] 0#8 0#8 0#8 0#8) = true ∧
      (running 255 [0x04#8] 0#8 0#8 0#8 0#8).mem.byteAt 255 = 0x04#8) := by decide

theorem witness_HltClearsRunningAndIsTerminal :
    stepEnabled (running 255 [0xFF#8] 0#8 0#8 0#8 0#8) = true ∧
      (running 255 [0xFF#8] 0#8 0#8 0#8 0#8).mem.byteAt 255 = 0xFF#8 := by decide

/-- Also the hypotheses of the second clause of NoEncodingTraps. -/
theorem witness_UnknownOpcodeReportsItselfOnly :
    stepEnabled (running 255 [0xFE#8] 0#8 0#8 0#8 0#8) = true ∧
      (running 255 [0xFE#8] 0#8 0#8 0#8 0#8).mem.byteAt 255 ∉ definedOpcodes := by decide

/-- The first clause, at its last pc. -/
theorem witness_NoEncodingTraps : stepEnabled (running 253 [0x02#8, 0x04#8, 0xC8#8] 0#8 0#8 0#8 0#8) = true := by decide

theorem witness_SameRegisterOperandsAreItsOldValue : regId 0#8 = regId 9#8 ∧ regId 3#8 = regId 3#8 := by decide

theorem witness_RegisterWriteStoresLowEightBits : ∃ b : Byte, (255 : Int) = (b.toNat : Int) := ⟨255#8, rfl⟩

theorem witness_MemReadIsBoundsChecked :
    ((0 : Int) ≤ 0 ∧ (0 : Int) < 256) ∧ ((0 : Int) ≤ 255 ∧ (255 : Int) < 256) ∧
    ((-1 : Int) < 0 ∨ (256 : Int) ≤ -1) ∧ ((256 : Int) < 0 ∨ (256 : Int) ≤ 256) := by decide

theorem witness_FetchReadsAndAdvancesOrRaises :
    (running 255 [] 0#8 0#8 0#8 0#8).pc < 256 ∧ 256 ≤ (running 256 [] 0#8 0#8 0#8 0#8).pc := by decide

theorem witness_RegIdIsTableWithDefaultA : 4 ≤ (4#8 : Byte).toNat ∧ 4 ≤ (255#8 : Byte).toNat := by decide

theorem witness_AluAddWrapsAndAluAndIsBitwise :
    (100#8 : Byte).toNat + (155#8 : Byte).toNat ≤ 255 ∧ 256 ≤ (255#8 : Byte).toNat + (1#8 : Byte).toNat ∧ 7 < 8 := by
  decide

theorem witness_AluSubWrapsOrIsBitwiseNotComplements :
    (5#8 : Byte).toNat ≤ (5#8 : Byte).toNat ∧ (0#8 : Byte).toNat < (1#8 : Byte).toNat ∧ 7 < 8 := by decide

theorem witness_FormatsPlaceEveryField : (0#8 : Byte) ∉ definedOpcodes ∧ (0xFE#8 : Byte) ∉ definedOpcodes := by decide

/-- Also for WrittenLineAssemblesBack. -/
theorem witness_DecodeOfEncodeIsTheInstruction :
    (Instr.unknown 0x05#8).WellFormed ∧ (Instr.load 255#8 255#8).WellFormed := by decide

theorem witness_DecodedBytesAreTheEncoding : decode [0x04#8, 0xC8#8, 0xFF#8] = .ok (.out 0xC8#8, [0xFF#8]) := rfl

theorem witness_StepRunsDecodedInstruction :
    stepEnabled (running 254 [0x04#8, 0x02#8] 0#8 0#8 0#8 0#8) = true ∧
    decode (running 254 [0x04#8, 0x02#8] 0#8 0#8 0#8 0#8).bytesAhead = .ok (.out 2#8, []) := ⟨rfl, rfl⟩

theorem witness_StepOnTruncatedInstructionFaults :
    (stepEnabled (running 254 [0x02#8, 0x00#8] 0#8 0#8 0#8 0#8) = true ∧
      decode (running 254 [0x02#8, 0x00#8] 0#8 0#8 0#8 0#8).bytesAhead = .error .endOfBytes) ∧
    (stepEnabled (running 256 [] 0#8 0#8 0#8 0#8) = true ∧
      decode (running 256 [] 0#8 0#8 0#8 0#8).bytesAhead = .error .endOfBytes) := ⟨⟨rfl, rfl⟩, rfl, rfl⟩

theorem witness_StuckStatesAreNamed :
    State.reset.running = false ∧
    (running 256 [] 0#8 0#8 0#8 0#8).faultedPastEnd.running = true ∧
    (running 256 [] 0#8 0#8 0#8 0#8).faultedPastEnd.fault = some (.programCounterOutOfBounds 256) := by decide

/-- A step that completes and a step that faults, both from a pc in range: the hypotheses of NoInstructionWritesMemory,
OnlyHltWritesRunning, PcAdvancesByLengthAndNeverWraps, CompletedStepEmitsOneEventFaultedStepNone and
TraceNeverInfluencesTheEngine. -/
theorem witness_steps_complete_or_fault :
    (∃ t, step (running 253 [0x03#8, 0x02#8, 0x03#8] 0#8 0#8 0xFF#8 1#8) = .next t ∧ t.fault = none) ∧
    (∃ t, step (running 256 [] 0#8 0#8 0#8 0#8) = .next t ∧ t.fault ≠ none) ∧
    (∃ t, exec .hlt State.reset = .next t) ∧
    (∃ r, step State.reset = .fault r) :=
  ⟨⟨_, rfl, rfl⟩, ⟨_, rfl, nofun⟩, ⟨_, rfl⟩, ⟨_, rfl⟩⟩

/-- Another opcode, and another register at an opcode that writes one. -/
theorem witness_OnlyLoadAddAndWriteTheirDestination :
    (∃ t, step (running 0 [0x04#8, 0x00#8] 0#8 0#8 0#8 0#8) = .next t) ∧
    (running 0 [0x04#8, 0x00#8] 0#8 0#8 0#8 0#8).mem.byteAt 0 ∉ [0x01#8, 0x02#8, 0x03#8] ∧
    (∃ t, step (running 0 [0x01#8, 0x00#8, 0x07#8] 0#8 0#8 0#8 0#8) = .next t) ∧
    Reg.D ≠ regId ((running 0 [0x01#8, 0x00#8, 0x07#8] 0#8 0#8 0#8 0#8).mem.byteAt 1) :=
  ⟨⟨_, rfl⟩, by decide, ⟨_, rfl⟩, by decide⟩

/-- Memories that differ past the instruction. -/
theorem witness_StepReadsOnlyFetchedBytes :
    (∃ t, step (running 0 [0x04#8, 0x02#8, 0xFF#8] 0#8 0#8 0#8 0#8) = .next t) ∧
    ∀ k, k < opcodeLength ((running 0 [0x04#8, 0x02#8, 0xFF#8] 0#8 0#8 0#8 0#8).mem.byteAt 0) →
      Memory.byteAt [(0, 0x04#8), (1, 0x02#8), (2, 0x01#8)] k =
        (running 0 [0x04#8, 0x02#8, 0xFF#8] 0#8 0#8 0#8 0#8).mem.byteAt k :=
  ⟨⟨_, rfl⟩, by decide⟩

/-- A state in the middle of a run that meets the invariant and has a next state. -/
theorem witness_StepKeepsInv :
    (running 253 [0x01#8, 0x01#8, 0x2A#8] 0#8 0#8 0#8 0#8).Inv ∧
    ∃ t, step (running 253 [0x01#8, 0x01#8, 0x2A#8] 0#8 0#8 0#8 0#8) = .next t :=
  ⟨⟨by decide, by decide, by decide, nofun, nofun, nofun⟩, ⟨_, rfl⟩⟩

/-- A host's move out of a run: also for LoaderCopiesFromZeroAndTruncates, PreloadStoresLowEightBits and
FinalStateIsReadableAfterRun. -/
theorem witness_HostActionsKeepInv :
    stepEnabled (halted 7) = false ∧ (halted 7).Inv ∧
    (∃ t, hostAct (.load [0xFF#8]) (halted 7) = .next t) ∧
    (∃ t, hostAct (.preload .B 300) (halted 7) = .next t) ∧
    (∃ t, hostAct .run (halted 7) = .next t) :=
  ⟨rfl, ⟨by decide, by decide, by decide, nofun, fun _ => rfl, fun _ => .inr rfl⟩, ⟨_, rfl⟩, ⟨_, rfl⟩, ⟨_, rfl⟩⟩

/-- A constructed machine that has been loaded, and its next preparation. -/
theorem witness_FinalStateIsHiddenBeforeFirstRun :
    HostAction.preload .B 300 ≠ .run ∧
    (∃ t, hostAct (.preload .B 300) (load [0xFF#8] State.reset) = .next t) ∧
    readFinalState (load [0xFF#8] State.reset) = none := ⟨nofun, ⟨_, rfl⟩, rfl⟩

/-- Each side of the two ways: a faulted state, a halted one, and one in the middle of a run. -/
theorem witness_FinalStateIsReadableExactlyAfterRunEnds :
    (running 255 [0x04#8] 0#8 0#8 0#8 0#8).faultedPastEnd.Inv ∧ (halted 1).Inv ∧
    (running 0 [0xFF#8] 0#8 0#8 0#8 0#8).Inv :=
  ⟨⟨by decide, by decide, by decide, fun f h => by cases h; exact ⟨rfl, rfl, rfl⟩, nofun, nofun⟩,
   ⟨by decide, by decide, by decide, nofun, fun _ => rfl, fun _ => .inr rfl⟩,
   ⟨by decide, by decide, by decide, nofun, nofun, nofun⟩⟩

theorem witness_HostIsRefusedDuringRun : stepEnabled (running 0 [] 0#8 0#8 0#8 0#8) = true := by decide

end Sys2Proof.Tests
end

/-! The register write and the running flag (10_state.md R22, R29). -/

namespace Sys2Proof.Machine

/-! Register writes. -/

/-- Settles O4: the write stores the mask of v, which `unsigned_mask8` reads as v modulo 256 and which changes no
byte. -/
theorem registerWriteStoresLowEightBits : Obligations.RegisterWriteStoresLowEightBits := by
  intro s r v
  refine ⟨?lowBits, ?byte, fun q hq => State.readReg_writeReg_of_ne v s hq, ⟨rfl, rfl, rfl⟩, fun _ => rfl, rfl⟩
  case lowBits =>
    rw [State.readReg_writeReg_same]
    exact unsigned_mask8 v
  case byte =>
    intro b hb
    rw [State.readReg_writeReg_same, hb]
    exact mask8_unsigned b

/-! The opcode of HLT. -/

/-- The opcode map sends 0xFF alone to the row of HLT (R65). -/
theorem opcodeRow_eq_hlt_iff (op : Byte) : opcodeRow op = .hlt ↔ op = 0xFF#8 := by
  constructor
  · intro h
    unfold opcodeRow at h
    split_ifs at h
    assumption
  · rintro rfl
    rfl

/-- The fetched instruction is HLT exactly at the opcode 0xFF, whatever bytes follow. -/
theorem instrOf_eq_hlt_iff (op b1 b2 : Byte) : instrOf op b1 b2 = .hlt ↔ op = 0xFF#8 := by
  rw [← opcodeRow_eq_hlt_iff]
  unfold instrOf
  cases opcodeRow op <;> simp

/-- HLT is one byte long, so that it fits at every address of memory (R61). -/
theorem opcodeLength_hlt : opcodeLength 0xFF#8 = 1 := rfl

/-! The running flag. -/

/-- `runningAfter` by whether the instruction is HLT (R29). -/
theorem runningAfter_eq_ite (i : Instr) (s : State) :
    runningAfter i s = if i = .hlt then false else s.running := by
  cases i <;> rfl

/-- The running flag after a meaning (R29). -/
theorem running_of_exec_next {i : Instr} {s t : State} (h : exec i s = .next t) :
    t.running = if i = .hlt then false else s.running := by
  rw [exec_eq] at h
  cases h
  exact runningAfter_eq_ite i s

/-- A step clears the running flag exactly where it fetches the opcode of HLT (R29). A step that faults never has
fetched that opcode, and leaves the flag set (R27). -/
theorem running_false_iff_of_step_next {s t : State} (h : step s = .next t) :
    t.running = false ↔ s.pc < 256 ∧ s.mem.byteAt s.pc = 0xFF#8 := by
  obtain ⟨hrun, -, ⟨i, b1, b2, hfit, -, -, hi, hexec⟩ | ⟨-, hlong, rfl⟩ | ⟨hpast, rfl⟩⟩ := step_next_cases h
  case inl =>
    have hlen := opcodeLength_bounds (s.mem.byteAt s.pc)
    have hpc : s.pc < 256 := by omega
    have hhlt : i = .hlt ↔ s.mem.byteAt s.pc = 0xFF#8 := hi ▸ instrOf_eq_hlt_iff _ b1 b2
    simp [running_of_exec_next hexec, hrun, hpc, hhlt]
  case inr.inl =>
    have hnot : ¬ (s.pc < 256 ∧ s.mem.byteAt s.pc = 0xFF#8) := by
      rintro ⟨hpc, hop⟩
      rw [hop, opcodeLength_hlt] at hlong
      omega
    simp [State.faultedPastEnd, hrun, hnot]
  case inr.inr =>
    have hnot : ¬ s.pc < 256 := by omega
    simp [hrun, hnot]

/-- Settles O29, from what a meaning and a step do to the running flag. -/
theorem onlyHltWritesRunning : Obligations.OnlyHltWritesRunning :=
  ⟨fun _ _ _ => running_of_exec_next, fun _ _ => running_false_iff_of_step_next⟩

end Sys2Proof.Machine

/-! Memory: the bounds-checked read, the fetch, and the frame of a run (20_memory.md R41, R42, R45). -/

namespace Sys2Proof.Machine

/-! Memory reads. -/

/-- A memory read inside 0..255, as an equation (R41). -/
theorem memRead_of_inBounds {addr : Int} (s : State) (h0 : 0 ≤ addr) (h256 : addr < 256) :
    memRead addr s = .ok (s.mem.byteAt addr.toNat) :=
  if_neg (by omega)

/-- A memory read outside 0..255, as an equation: the raise leaves only the fault record (R41, R165). -/
theorem memRead_of_outOfBounds {addr : Int} (s : State) (h : addr < 0 ∨ 256 ≤ addr) :
    memRead addr s = .error { s with fault := some (.outOfBounds addr) } :=
  if_pos h

/-- Settles O5, by the two sides of the bounds check. -/
theorem memReadIsBoundsChecked : Obligations.MemReadIsBoundsChecked :=
  fun _ s => ⟨memRead_of_inBounds s, memRead_of_outOfBounds s⟩

/-- Settles O6, by the two sides of the check on the pc. -/
theorem fetchReadsAndAdvancesOrRaises : Obligations.FetchReadsAndAdvancesOrRaises :=
  fun _ => ⟨fetch_of_lt, fetch_of_ge⟩

/-! The memory frame. Each part keeps the memory list itself, so every byte reads as before. -/

/-- No meaning writes memory (R42). -/
theorem mem_of_exec_next {i : Instr} {s t : State} (h : exec i s = .next t) : t.mem = s.mem := by
  rw [exec_eq] at h
  cases h
  rfl

/-- No step writes memory: the fetches move the pc, a fault writes its record, and the meaning keeps memory (R42). -/
theorem mem_of_step_next {s t : State} (h : step s = .next t) : t.mem = s.mem := by
  obtain ⟨-, -, ⟨i, b1, b2, -, -, -, -, hexec⟩ | ⟨-, -, rfl⟩ | ⟨-, rfl⟩⟩ := step_next_cases h
  case inl =>
    have hmem := mem_of_exec_next hexec
    exact hmem
  case inr.inl => rfl
  case inr.inr => rfl

/-- Memory is constant during a run, for any number of steps (R42). -/
theorem runLoop_mem (n : Nat) (s : State) : (runLoop n s).mem = s.mem :=
  runLoop_keeps (P := fun u => u.mem = s.mem) (fun _ _ hu hstep => (mem_of_step_next hstep).trans hu) n rfl

/-- A whole run keeps memory: run start does, and then the loop does (R42, R100). -/
@[simp] theorem run_mem (s : State) : (run s).mem = s.mem :=
  (runLoop_mem 257 (runStart s)).trans (runStart_mem s)

/-- Every byte of an unchanged memory reads as before. -/
theorem SameMemory.of_mem_eq {s t : State} (h : t.mem = s.mem) : SameMemory s t :=
  fun a => congrArg (Memory.byteAt · a) h

/-- Settles O28, from what a step, a meaning and a run leave of memory. -/
theorem noInstructionWritesMemory : Obligations.NoInstructionWritesMemory :=
  ⟨fun _ _ h => .of_mem_eq (mem_of_step_next h), fun _ _ _ h => .of_mem_eq (mem_of_exec_next h),
    fun s => .of_mem_eq (run_mem s)⟩

end Sys2Proof.Machine

/-! Encoding: the register-id table, the formats, and that no encoding traps (30_encoding.md R61, R63, R67). -/

namespace Sys2Proof.Machine

/-! The register-id table. -/

/-- A byte past the table names the default register (R63). -/
theorem regId_of_four_le {b : RegIdByte} (h : 4 ≤ b.toNat) : regId b = .A := by
  have past_table (k : Byte) (hk : k.toNat < 4) : b ≠ k := by
    rintro rfl
    omega
  simp only [regId, past_table 0#8 (by decide), past_table 1#8 (by decide), past_table 2#8 (by decide),
    past_table 3#8 (by decide), if_false]

/-- Settles O7: the table's four rows, and its default. -/
theorem regIdIsTableWithDefaultA : Obligations.RegIdIsTableWithDefaultA :=
  ⟨rfl, rfl, rfl, rfl, fun _ => regId_of_four_le⟩

/-! Opcodes of no row of their own. -/

/-- An unknown opcode is well formed exactly where the table does not define it (R65). -/
theorem wellFormed_unknown_iff (op : Byte) : (Instr.unknown op).WellFormed ↔ op ∉ definedOpcodes := by
  simp [Instr.WellFormed, Instr.wellFormed]

/-- An opcode byte outside the table selects the row of the unknown opcodes (R65). -/
theorem opcodeRow_of_notMem {op : Byte} (h : op ∉ definedOpcodes) : opcodeRow op = .unknown :=
  Laws.opcodeRow_of_wellFormed_unknown ((wellFormed_unknown_iff op).mpr h)

/-- An unknown opcode is one byte long (R66). -/
theorem opcodeLength_of_notMem {op : Byte} (h : op ∉ definedOpcodes) : opcodeLength op = 1 := by
  simp only [opcodeLength, opcodeRow_of_notMem h]

/-- An unknown opcode takes no operand from the bytes after it (R150). -/
theorem instrOf_of_notMem {op : Byte} (h : op ∉ definedOpcodes) (b1 b2 : Byte) : instrOf op b1 b2 = .unknown op := by
  simp only [instrOf, opcodeRow_of_notMem h]

/-! Decoding a list of bytes. -/

/-- Bytes that reach as far as the opcode's length decode to the instruction of the opcode and the operand bytes after
it, and exactly the bytes past that length are left over (R61, R66). An operand that the row does not call for is not
looked at, so the 0 that stands in for a missing one is never part of the instruction. -/
theorem decode_cons_of_fits {op : Byte} {bs : List Byte} (h : opcodeLength op ≤ bs.length + 1) :
    decode (op :: bs) =
      .ok (instrOf op (bs.getD 0 0#8) (bs.getD 1 0#8), bs.drop (opcodeLength op - 1)) := by
  have two_operands (mk : Byte → Byte → Instr) (h : 3 ≤ bs.length + 1) :
      takeTwoOperands nextByte mk bs = .ok (mk (bs.getD 0 0#8) (bs.getD 1 0#8), bs.drop 2) := by
    match bs, h with
    | _ :: _ :: _, _ => rfl
  have one_operand (mk : Byte → Instr) (h : 2 ≤ bs.length + 1) :
      takeOperand nextByte mk bs = .ok (mk (bs.getD 0 0#8), bs.drop 1) := by
    match bs, h with
    | _ :: _, _ => rfl
  rw [decode, decodeFrom_of_ok (rfl : nextByte (op :: bs) = .ok (op, bs))]
  unfold instrOf opcodeLength at *
  cases hrow : opcodeRow op <;> rw [hrow] at h
  case load => exact two_operands .load h
  case add => exact two_operands .add h
  case and => exact two_operands .and h
  case out => exact one_operand .out h
  case hlt => rfl
  case unknown => rfl

/-- An unknown opcode decodes to itself, with every byte after it left over (R61, R65). -/
theorem decode_cons_of_notMem {op : Byte} (h : op ∉ definedOpcodes) (rest : List Byte) :
    decode (op :: rest) = .ok (.unknown op, rest) := by
  have hlen := opcodeLength_of_notMem h
  rw [decode_cons_of_fits (by omega), instrOf_of_notMem h, hlen]
  rfl

/-- Settles O11: each format's opcode fixes the length and the operands that `decode_cons_of_fits` speaks of. -/
theorem formatsPlaceEveryField : Obligations.FormatsPlaceEveryField := by
  intro b1 b2 rest
  refine ⟨?load, ?add, ?and, ?out, ?hlt, fun op hop => decode_cons_of_notMem hop rest⟩
  case load => exact decode_cons_of_fits (Nat.le_add_left 3 rest.length)
  case add => exact decode_cons_of_fits (Nat.le_add_left 3 rest.length)
  case and => exact decode_cons_of_fits (Nat.le_add_left 3 rest.length)
  case out => exact decode_cons_of_fits (Nat.le_add_left 2 rest.length)
  case hlt => exact decode_cons_of_fits (Nat.le_add_left 1 rest.length)

/-! A step on bytes that fit. -/

/-- An enabled step whose instruction lies wholly in memory runs that instruction, with the pc past it (R103). -/
theorem step_of_fits {s : State} (he : stepEnabled s = true)
    (hfit : s.pc + opcodeLength (s.mem.byteAt s.pc) ≤ 256) :
    step s =
      exec (instrOf (s.mem.byteAt s.pc) (s.mem.byteAt (s.pc + 1)) (s.mem.byteAt (s.pc + 2)))
        { s with pc := s.pc + opcodeLength (s.mem.byteAt s.pc) } := by
  rw [step_of_enabled he, fetchInstr_of_fits hfit]

/-- No fault record is held where a step is enabled (R102). -/
theorem fault_of_stepEnabled {s : State} (h : stepEnabled s = true) : s.fault = none := by
  simp only [stepEnabled, Bool.and_eq_true, Option.isNone_iff_eq_none] at h
  exact h.2

/-- Where the longest instruction fits, a step completes without a fault at any bytes: the meaning that runs writes
registers, the running flag and the trace only (R67). -/
theorem step_completes_of_longest_fits {s : State} (he : stepEnabled s = true) (hpc : s.pc ≤ 253) :
    ∃ t, step s = .next t ∧ t.fault = none := by
  have hlen := opcodeLength_bounds (s.mem.byteAt s.pc)
  have hfault := fault_of_stepEnabled he
  rw [step_of_fits he (by omega), exec_eq]
  exact ⟨_, rfl, hfault⟩

/-- A step at an unknown opcode, anywhere in memory, moves the pc past it and reports it (R67, R150). -/
theorem step_of_unknown_opcode {s : State} (he : stepEnabled s = true) (hpc : s.pc < 256)
    (hop : s.mem.byteAt s.pc ∉ definedOpcodes) :
    step s = .next { s with pc := s.pc + 1, trace := s.trace ++ [.unknown (s.mem.byteAt s.pc)] } := by
  have hlen := opcodeLength_of_notMem hop
  rw [step_of_fits he (by omega), instrOf_of_notMem hop, hlen, exec_eq]
  rfl

/-- Settles O27, from a step where the longest instruction fits and a step at an unknown opcode. -/
theorem noEncodingTraps : Obligations.NoEncodingTraps :=
  ⟨fun _ => step_completes_of_longest_fits, fun _ => step_of_unknown_opcode⟩

end Sys2Proof.Machine

/-! The ALU: each operation as arithmetic or bit by bit (40_alu.md R82 to R86). -/

namespace Sys2Proof.Machine

/-! Each operation as an operation on machine words: the cases of `alu_eq`. -/

theorem alu_add (a b : Byte) : alu .add a b = a + b := alu_eq .add a b
theorem alu_sub (a b : Byte) : alu .sub a b = a - b := alu_eq .sub a b
theorem alu_and (a b : Byte) : alu .and a b = a &&& b := alu_eq .and a b
theorem alu_or (a b : Byte) : alu .or a b = a ||| b := alu_eq .or a b
theorem alu_not (a b : Byte) : alu .not a b = ~~~ a := alu_eq .not a b

/-! The results as numbers. -/

/-- ADD is the sum modulo 256 (R82). -/
theorem toNat_alu_add (a b : Byte) : (alu .add a b).toNat = (a.toNat + b.toNat) % 256 := by
  rw [alu_add]
  exact BitVec.toNat_add a b

/-- SUB without a borrow is the difference (R83). -/
theorem toNat_alu_sub_of_le {a b : Byte} (h : b.toNat ≤ a.toNat) :
    (alu .sub a b).toNat = a.toNat - b.toNat := by
  rw [alu_sub]
  exact BitVec.toNat_sub_of_le h

/-- SUB with a borrow is 256 more than the negative difference (R83). -/
theorem toNat_alu_sub_of_lt {a b : Byte} (h : a.toNat < b.toNat) :
    (alu .sub a b).toNat = a.toNat + 256 - b.toNat := by
  have hb := b.isLt
  rw [alu_sub, BitVec.toNat_sub]
  omega

/-- NOT is 255 minus its first operand (R86). -/
theorem toNat_alu_not (a b : Byte) : (alu .not a b).toNat = 255 - a.toNat := by
  rw [alu_not]
  exact BitVec.toNat_not

/-! The results bit by bit. -/

theorem getLsbD_alu_and (a b : Byte) (i : Nat) :
    (alu .and a b).getLsbD i = (a.getLsbD i && b.getLsbD i) := by
  rw [alu_and, BitVec.getLsbD_and]

theorem getLsbD_alu_or (a b : Byte) (i : Nat) :
    (alu .or a b).getLsbD i = (a.getLsbD i || b.getLsbD i) := by
  rw [alu_or, BitVec.getLsbD_or]

/-- NOT inverts each of the eight bits of the byte (R86); past them a byte and its complement both read 0. -/
theorem getLsbD_alu_not (a b : Byte) {i : Nat} (hi : i < 8) : (alu .not a b).getLsbD i = !a.getLsbD i := by
  rw [alu_not, BitVec.getLsbD_not, decide_eq_true hi, Bool.true_and]

/-- Settles O8: the sum modulo 256, on either side of the carry, and AND bit by bit. -/
theorem aluAddWrapsAndAluAndIsBitwise : Obligations.AluAddWrapsAndAluAndIsBitwise := by
  intro a b
  have ha := a.isLt
  have hb := b.isLt
  have hsum := toNat_alu_add a b
  refine ⟨⟨hsum, ?noCarry, ?carry⟩, fun i _ => getLsbD_alu_and a b i⟩
  case noCarry =>
    intro hle
    omega
  case carry =>
    intro hge
    omega

/-- Settles O9: SUB on either side of the borrow, OR bit by bit, NOT as a number and bit by bit. -/
theorem aluSubWrapsOrIsBitwiseNotComplements : Obligations.AluSubWrapsOrIsBitwiseNotComplements :=
  fun a b => ⟨⟨toNat_alu_sub_of_le, toNat_alu_sub_of_lt⟩, fun i _ => getLsbD_alu_or a b i,
    toNat_alu_not a b, fun _ => getLsbD_alu_not a b⟩

end Sys2Proof.Machine

/-! The cycle: where the CORE has a step (41_engine_cycle.md R102). -/

namespace Sys2Proof.Machine

/-- The enabling check of the model as the condition the spec writes (R102). -/
theorem stepEnabled_iff {s : State} : stepEnabled s = true ↔ s.running = true ∧ s.fault = none := by
  simp only [stepEnabled, Bool.and_eq_true, Option.isNone_iff_eq_none]

/-- An enabled step always answers a next state: a fetch that raises records its fault in that state, and every
meaning completes (R102, R103, R165). -/
theorem exists_step_next_of_enabled {s : State} (he : stepEnabled s = true) : ∃ t, step s = .next t := by
  rw [step_of_enabled he]
  cases fetchInstr s with
  | error t => exact ⟨t, rfl⟩
  | ok fetched => exact ⟨_, exec_eq fetched.1 fetched.2⟩

/-- A step answers a next state exactly where it is enabled (R102). -/
theorem exists_step_next_iff {s : State} : (∃ t, step s = .next t) ↔ stepEnabled s = true :=
  ⟨fun ⟨_, hstep⟩ => stepEnabled_of_step_next hstep, exists_step_next_of_enabled⟩

/-- Settles O25, from where a step answers a next state and what the enabling check says. -/
theorem stepIsEnabledExactlyWhileRunIsOn : Obligations.StepIsEnabledExactlyWhileRunIsOn :=
  fun _ => exists_step_next_iff.trans stepEnabled_iff

end Sys2Proof.Machine

/-! The register instructions LOAD, ADD and AND (42_register_instructions.md R120, R125, R130). Their meanings are one
register write and one event; their encodings are three bytes long. -/

namespace Sys2Proof.Machine

/-! The meaning. -/

/-- A meaning that replaces one register of the file and leaves the running flag: the register reads as written, one
event is appended, and everything else is kept (R135). -/
theorem exec_of_register_replaced {i : Instr} {s : State} {r : Reg} {v : Byte}
    (hregs : regsAfter i s = s.regs.set r v) (hrunning : runningAfter i s = s.running) :
    ∃ t, exec i s = .next t ∧ t.readReg r = v ∧ SameRegsExcept r s t ∧ SameMemory s t ∧ SameControl s t ∧
      t.trace = s.trace ++ [eventOf i s] := by
  rw [exec_eq, hregs, hrunning]
  exact ⟨_, rfl, RegFile.get_set_same s.regs r v, fun _ hq => RegFile.get_set_of_ne s.regs v hq, fun _ => rfl,
    ⟨rfl, rfl, rfl⟩, rfl⟩

/-! The step. -/

/-- An enabled step whose instruction runs past the end of memory leaves the faulted state (R161, R165). -/
theorem step_of_truncated {s : State} (he : stepEnabled s = true) (hpc : s.pc ≤ 256)
    (hlong : 256 < s.pc + opcodeLength (s.mem.byteAt s.pc)) : step s = .next s.faultedPastEnd := by
  rw [step_of_enabled he, fetchInstr_of_truncated hpc (.inl hlong)]

/-- An enabled step at the opcode of a three-byte format: the instruction made of the two bytes that follow runs where
they lie in memory, and at the last two addresses a fetch meets the end of memory (R61, R103, R161). -/
theorem step_at_three_byte_opcode {op : Byte} {mk : Byte → Byte → Instr} (hlen : opcodeLength op = 3)
    (hmk : ∀ b1 b2, instrOf op b1 b2 = mk b1 b2) {s : State} (he : stepEnabled s = true)
    (hop : s.mem.byteAt s.pc = op) :
    (s.pc ≤ 253 →
      step s = exec (mk (s.mem.byteAt (s.pc + 1)) (s.mem.byteAt (s.pc + 2))) { s with pc := s.pc + 3 }) ∧
    (s.pc = 254 ∨ s.pc = 255 → step s = .next s.faultedPastEnd) := by
  have hlen_at : opcodeLength (s.mem.byteAt s.pc) = 3 := hop ▸ hlen
  constructor
  · intro hfits
    rw [step_of_fits he (by omega), hlen_at, hop, hmk]
  · intro hlast
    exact step_of_truncated he (by omega) (by omega)

/-! The three statements: what the register receives, and the step at the instruction's opcode. -/

/-- Settles O16: the register written is the named one, with the immediate as its value. -/
theorem loadSetsNamedRegister : Obligations.LoadSetsNamedRegister :=
  ⟨fun _ _ _ => exec_of_register_replaced rfl rfl,
    fun _ => step_at_three_byte_opcode (mk := .load) rfl (fun _ _ => rfl)⟩

/-- Settles O17: the destination receives the ALU's sum of the old values, which `toNat_alu_add` reads modulo 256. -/
theorem addWritesWrappedSum : Obligations.AddWritesWrappedSum := by
  refine ⟨fun d src s => ?meaning, fun _ => step_at_three_byte_opcode (mk := .add) rfl (fun _ _ => rfl)⟩
  case meaning =>
    obtain ⟨t, hexec, hdest, hregs, hmem, hcontrol, htrace⟩ :=
      exec_of_register_replaced (i := .add d src) (s := s) rfl rfl
    refine ⟨t, hexec, ?sum, hregs, hmem, hcontrol, ?event⟩
    case sum => rw [hdest, toNat_alu_add]
    case event => rw [hdest]; exact htrace

/-- Settles O18: the destination receives the ALU's AND of the old values, which `alu_and` reads as the bitwise AND. -/
theorem andWritesBitwiseAnd : Obligations.AndWritesBitwiseAnd := by
  refine ⟨fun d src s => ?meaning, fun _ => step_at_three_byte_opcode (mk := .and) rfl (fun _ _ => rfl)⟩
  case meaning =>
    obtain ⟨t, hexec, hdest, hregs, hmem, hcontrol, htrace⟩ :=
      exec_of_register_replaced (i := .and d src) (s := s) rfl rfl
    refine ⟨t, hexec, ?conjunction, hregs, hmem, hcontrol, ?event⟩
    case conjunction => rw [hdest, alu_and]
    case event => rw [hdest]; exact htrace

end Sys2Proof.Machine

/-! Control and observation: OUT, HLT and the unknown opcodes (43_control_and_observation.md R140, R145, R150). None of
their meanings writes a register; HLT alone writes the running flag. -/

namespace Sys2Proof.Machine

/-! The meaning. -/

/-- A meaning that leaves the register file and the running flag: one event is appended and everything else is kept
(R140, R150). -/
theorem exec_of_observation_only {i : Instr} {s : State}
    (hregs : regsAfter i s = s.regs) (hrunning : runningAfter i s = s.running) :
    ∃ t, exec i s = .next t ∧ SameRegs s t ∧ SameMemory s t ∧ SameControl s t ∧ t.trace = s.trace ++ [eventOf i s] := by
  rw [exec_eq, hregs, hrunning]
  exact ⟨_, rfl, fun _ => rfl, fun _ => rfl, ⟨rfl, rfl, rfl⟩, rfl⟩

/-- The meaning of HLT, as an equation (R145). -/
theorem exec_hlt (s : State) : exec .hlt s = .next { s with running := false, trace := s.trace ++ [.hlt] } :=
  exec_eq .hlt s

/-! The step. -/

/-- No step is taken where the running flag is clear: nothing but run start resumes a halted run (R102, R145). -/
theorem step_ne_next_of_not_running {s : State} (h : s.running = false) (t : State) : step s ≠ .next t := by
  intro hstep
  obtain ⟨hrunning, -⟩ := stepEnabled_iff.mp (stepEnabled_of_step_next hstep)
  rw [h] at hrunning
  cases hrunning

/-- An enabled step at an opcode of known length, where that many bytes lie in memory, runs the instruction that the
opcode and the bytes after it name (R61, R103). -/
theorem step_at_opcode_of_length {s : State} {n : Nat} {i : Instr} (he : stepEnabled s = true)
    (hlen : opcodeLength (s.mem.byteAt s.pc) = n) (hfit : s.pc + n ≤ 256)
    (hi : instrOf (s.mem.byteAt s.pc) (s.mem.byteAt (s.pc + 1)) (s.mem.byteAt (s.pc + 2)) = i) :
    step s = exec i { s with pc := s.pc + n } := by
  subst hlen hi
  exact step_of_fits he hfit

/-- OUT is two bytes long (R61). -/
theorem opcodeLength_out : opcodeLength 0x04#8 = 2 := rfl

/-- The fetched instruction at the opcode of OUT takes the byte that follows and no other (R61). -/
theorem instrOf_out (b1 b2 : Byte) : instrOf 0x04#8 b1 b2 = .out b1 := rfl

/-! The three statements: what the meaning keeps, and the step at the instruction's opcode. -/

/-- Settles O19: OUT only observes; its two bytes fit up to 254, and at 255 the operand fetch meets the end of
memory. -/
theorem outReportsRegisterOnly : Obligations.OutReportsRegisterOnly := by
  refine ⟨fun _ _ => exec_of_observation_only rfl rfl, fun s he hop => ?step⟩
  case step =>
    have hlen : opcodeLength (s.mem.byteAt s.pc) = 2 := hop ▸ opcodeLength_out
    constructor
    · intro hfits
      exact step_at_opcode_of_length he hlen (by omega) (hop ▸ instrOf_out _ _)
    · intro hlast
      exact step_of_truncated he (by omega) (by omega)

/-- Settles O20: HLT clears the flag without which no step is taken, and its one byte fits at every address. -/
theorem hltClearsRunningAndIsTerminal : Obligations.HltClearsRunningAndIsTerminal := by
  refine ⟨fun s => ?meaning, fun s he hop hpc => ?step⟩
  case meaning =>
    exact ⟨_, exec_hlt s, rfl, rfl, rfl, fun _ => rfl, fun _ => rfl, rfl, step_ne_next_of_not_running rfl⟩
  case step =>
    exact step_at_opcode_of_length he (hop ▸ opcodeLength_hlt) (by omega) ((instrOf_eq_hlt_iff _ _ _).mpr hop)

/-- Settles O21: an unknown opcode only observes, and its one byte fits at every address. -/
theorem unknownOpcodeReportsItselfOnly : Obligations.UnknownOpcodeReportsItselfOnly := by
  refine ⟨fun _ _ => exec_of_observation_only rfl rfl, fun s he hop hpc => ?step⟩
  case step =>
    exact step_at_opcode_of_length he (opcodeLength_of_notMem hop) (by omega) (instrOf_of_notMem hop _ _)

end Sys2Proof.Machine

/-! The observer (60_exceptions.md R177): the trace is written by every meaning and read by none, so a step commutes
with replacing it. -/

namespace Sys2Proof.Machine

/-! What an instruction writes and reports, in a state whose trace has been replaced. -/

theorem regsAfter_trace_replaced (i : Instr) (s : State) (tr : List Event) :
    regsAfter i { s with trace := tr } = regsAfter i s := by
  cases i <;> rfl

theorem runningAfter_trace_replaced (i : Instr) (s : State) (tr : List Event) :
    runningAfter i { s with trace := tr } = runningAfter i s := by
  cases i <;> rfl

/-- The event reports registers and bytes of the instruction, never an earlier event (R175). -/
theorem eventOf_trace_replaced (i : Instr) (s : State) (tr : List Event) :
    eventOf i { s with trace := tr } = eventOf i s := by
  cases i <;> rfl

/-- A meaning appends one event, and with any other trace it gives the same state with that event appended to that
trace (R177). -/
theorem exec_of_trace_replaced {i : Instr} {s t : State} (tr : List Event) (h : exec i s = .next t) :
    t.trace = s.trace ++ [eventOf i s] ∧
      exec i { s with trace := tr } = .next { t with trace := tr ++ [eventOf i s] } := by
  rw [exec_eq] at h
  cases h
  refine ⟨rfl, ?_⟩
  rw [exec_eq, regsAfter_trace_replaced, runningAfter_trace_replaced, eventOf_trace_replaced]

/-! The step. -/

/-- An enabled step from a pc past the range (no run reaches one) records the fault and leaves the rest (R45, R165). -/
theorem step_of_past_range {s : State} (he : stepEnabled s = true) (hpast : 256 < s.pc) :
    step s = .next { s with fault := some (.programCounterOutOfBounds s.pc) } := by
  rw [step_of_enabled he, fetchInstr_of_gt (by omega)]

/-- With any other trace a step gives the same state and appends the same events: the event of the meaning where the
instruction's bytes fit, and none where a fetch raises (R177). -/
theorem step_of_trace_replaced {s t : State} (tr : List Event) (h : step s = .next t) :
    ∃ es, t.trace = s.trace ++ es ∧ step { s with trace := tr } = .next { t with trace := tr ++ es } := by
  have hs : stepEnabled s = true := stepEnabled_of_step_next h
  have he : stepEnabled { s with trace := tr } = true := hs
  obtain ⟨-, -, ⟨i, b1, b2, hfit, rfl, rfl, rfl, hexec⟩ | ⟨hpc, hlong, rfl⟩ | ⟨hpast, rfl⟩⟩ := step_next_cases h
  case inl =>
    obtain ⟨htrace, hexec'⟩ := exec_of_trace_replaced tr hexec
    exact ⟨_, htrace, (step_of_fits he hfit).trans hexec'⟩
  case inr.inl =>
    refine ⟨[], (List.append_nil s.trace).symm, ?_⟩
    rw [List.append_nil, step_of_truncated he hpc hlong]
    rfl
  case inr.inr =>
    refine ⟨[], (List.append_nil s.trace).symm, ?_⟩
    rw [List.append_nil, step_of_past_range he hpast]

/-! The stuck states. -/

/-- A step is stuck exactly where the check before it names a reason, and under that name: a step that passes the check
answers a next state (R102). -/
theorem step_eq_fault_iff {s : State} {r : Fault} : step s = .fault r ↔ noStepReason s = some r := by
  unfold step
  cases noStepReason s with
  | some r' => simp
  | none =>
    cases fetchInstr s with
    | error t => simp
    | ok fetched => simp [exec_eq]

/-- The check before a step looks at the running flag and the fault record only (R102). -/
theorem noStepReason_trace_replaced (s : State) (tr : List Event) :
    noStepReason { s with trace := tr } = noStepReason s := rfl

/-- Settles O33, from what replacing the trace does to a step and to the check before it. -/
theorem traceNeverInfluencesTheEngine : Obligations.TraceNeverInfluencesTheEngine := by
  intro s tr
  refine ⟨fun _ => step_of_trace_replaced tr, fun r hstuck => ?stuck⟩
  case stuck =>
    rw [step_eq_fault_iff, noStepReason_trace_replaced]
    exact step_eq_fault_iff.mp hstuck

end Sys2Proof.Machine

/-! Destination and source the same register (70_reset_and_hazards.md R195): the values ADD and AND write, read where
both operands are one register's old value. -/

namespace Sys2Proof.Machine

/-- Settles O22, from O17 and O18: with the source register equal to the destination, the sum of the old values is the
double of one, and AND of a byte with itself is that byte. -/
theorem sameRegisterOperandsAreItsOldValue : Obligations.SameRegisterOperandsAreItsOldValue := by
  intro d src s hsame
  constructor
  case left =>
    obtain ⟨t, hexec, hsum, -⟩ := addWritesWrappedSum.1 d src s
    refine ⟨t, hexec, ?double⟩
    case double => rw [hsum, ← hsame, Nat.two_mul]
  case right =>
    obtain ⟨t, hexec, hand, -⟩ := andWritesBitwiseAnd.1 d src s
    refine ⟨t, hexec, ?unchanged⟩
    case unchanged => rw [hand, ← hsame, BitVec.and_self]

end Sys2Proof.Machine

/-! Decoding and encoding undo each other (30_encoding.md R60 to R67). -/

namespace Sys2Proof.Machine

/-! The opcode byte and what it fixes. -/

/-- Every opcode byte is one of the five that name a row of their own, or an unknown opcode (R65). -/
theorem opcode_cases (op : Byte) :
    op = 0x01#8 ∨ op = 0x02#8 ∨ op = 0x03#8 ∨ op = 0x04#8 ∨ op = 0xFF#8 ∨ op ∉ definedOpcodes := by
  simp only [definedOpcodes, List.mem_cons, List.not_mem_nil, or_false]
  tauto

/-- A fetched instruction is well formed at every opcode and every operand byte: no encoding is illegal (R67). -/
theorem wellFormed_instrOf (op b1 b2 : Byte) : (instrOf op b1 b2).WellFormed := by
  obtain rfl | rfl | rfl | rfl | rfl | hunknown := opcode_cases op
  iterate 5 rfl
  rw [instrOf_of_notMem hunknown]
  exact (wellFormed_unknown_iff op).mpr hunknown

/-- The encoding of a fetched instruction is its opcode and as many of the bytes after it as the length says (R61,
R66). -/
theorem encode_instrOf (op b1 b2 : Byte) :
    encode (instrOf op b1 b2) = [op, b1, b2].take (opcodeLength op) := by
  obtain rfl | rfl | rfl | rfl | rfl | hunknown := opcode_cases op
  iterate 5 rfl
  rw [instrOf_of_notMem hunknown, opcodeLength_of_notMem hunknown]
  rfl

/-- A fetched instruction depends on the operand bytes within its length only (R61). -/
theorem instrOf_congr {op b1 b2 c1 c2 : Byte} (h1 : 2 ≤ opcodeLength op → b1 = c1)
    (h2 : 3 ≤ opcodeLength op → b2 = c2) : instrOf op b1 b2 = instrOf op c1 c2 := by
  unfold instrOf opcodeLength at *
  cases hrow : opcodeRow op <;> simp_all

/-! Lists of bytes. -/

/-- Bytes that end before the opcode's length are rejected, at the first operand byte that is missing (R60, R65). -/
theorem decode_cons_of_truncated {op : Byte} {bs : List Byte} (h : bs.length + 1 < opcodeLength op) :
    decode (op :: bs) = .error .endOfBytes := by
  have two_operands (mk : Byte → Byte → Instr) (h : bs.length + 1 < 3) :
      takeTwoOperands nextByte mk bs = .error .endOfBytes := by
    match bs, h with
    | [], _ => rfl
    | [_], _ => rfl
  have one_operand (mk : Byte → Instr) (h : bs.length + 1 < 2) :
      takeOperand nextByte mk bs = .error .endOfBytes := by
    match bs, h with
    | [], _ => rfl
  rw [decode, decodeFrom_of_ok (rfl : nextByte (op :: bs) = .ok (op, bs))]
  unfold opcodeLength at h
  cases hrow : opcodeRow op <;> rw [hrow] at h
  case load => exact two_operands .load h
  case add => exact two_operands .add h
  case and => exact two_operands .and h
  case out => exact one_operand .out h
  case hlt => simp at h
  case unknown => simp at h

/-- An opcode followed by enough bytes is the encoding of its instruction followed by the bytes past it (R61). -/
theorem cons_eq_encode_append_drop {op : Byte} {bs : List Byte} (h : opcodeLength op ≤ bs.length + 1) :
    op :: bs = encode (instrOf op (bs.getD 0 0#8) (bs.getD 1 0#8)) ++ bs.drop (opcodeLength op - 1) := by
  obtain ⟨hlo, hhi⟩ := opcodeLength_bounds op
  rw [encode_instrOf]
  generalize opcodeLength op = n at *
  obtain rfl | rfl | rfl : n = 1 ∨ n = 2 ∨ n = 3 := by omega
  case inl => rfl
  case inr.inl =>
    match bs, h with
    | _ :: _, _ => rfl
  case inr.inr =>
    match bs, h with
    | _ :: _ :: _, _ => rfl

/-- Settles O12: each instruction's bytes are one of the formats of O11, with its operands in their places. -/
theorem decodeOfEncodeIsTheInstruction : Obligations.DecodeOfEncodeIsTheInstruction := by
  intro i rest hwf
  cases i with
  | load r imm =>
    obtain ⟨hload, -⟩ := formatsPlaceEveryField r imm rest
    exact hload
  | add d s =>
    obtain ⟨-, hadd, -⟩ := formatsPlaceEveryField d s rest
    exact hadd
  | and d s =>
    obtain ⟨-, -, hand, -⟩ := formatsPlaceEveryField d s rest
    exact hand
  | out r =>
    obtain ⟨-, -, -, hout, -⟩ := formatsPlaceEveryField r 0#8 rest
    exact hout
  | hlt => exact decode_cons_of_fits (Nat.le_add_left 1 rest.length)
  | unknown op => exact decode_cons_of_notMem ((wellFormed_unknown_iff op).mp hwf) rest

/-- Settles O14: an empty list holds no opcode, and past the opcode the bytes decode exactly where they reach its
length. -/
theorem decodeRejectsExactlyTruncatedBytes : Obligations.DecodeRejectsExactlyTruncatedBytes := by
  intro bs
  cases bs with
  | nil => exact ⟨fun _ => (opcodeLength_bounds 0#8).1, fun _ => rfl⟩
  | cons op bs =>
    rw [List.headD_cons, List.length_cons]
    by_cases hfit : opcodeLength op ≤ bs.length + 1
    · simp [decode_cons_of_fits hfit, hfit]
    · rw [not_le] at hfit
      simp [decode_cons_of_truncated hfit, hfit]

/-- Settles O13: bytes that decode reach their opcode's length, and there they are the encoding of the fetched
instruction and the bytes past it. -/
theorem decodedBytesAreTheEncoding : Obligations.DecodedBytesAreTheEncoding := by
  intro bs rest i hdecode
  cases bs with
  | nil => cases hdecode
  | cons op bs =>
    by_cases hfit : opcodeLength op ≤ bs.length + 1
    · rw [decode_cons_of_fits hfit] at hdecode
      cases hdecode
      exact ⟨wellFormed_instrOf op _ _, cons_eq_encode_append_drop hfit, instrOf_length op _ _⟩
    · rw [decode_cons_of_truncated (not_le.mp hfit)] at hdecode
      cases hdecode

/-- Settles O10: the decoder evaluated on each word. -/
theorem sampleWordsDecode : Obligations.SampleWordsDecode := ⟨rfl, rfl, rfl, rfl, rfl, rfl⟩

end Sys2Proof.Machine

/-! The bytes ahead of the pc: the list the decoder reads and the bytes a step fetches are the same (30_encoding.md
R61, 41_engine_cycle.md R103, 60_exceptions.md R161). -/

namespace Sys2Proof.Machine

/-- A list of bytes decodes by its first three: the opcode, and the operand bytes within the opcode's length. -/
theorem decode_of_getElem? {bs : List Byte} {op b1 b2 : Byte} (h0 : bs[0]? = some op)
    (hfit : opcodeLength op ≤ bs.length) (h1 : 2 ≤ opcodeLength op → bs[1]? = some b1)
    (h2 : 3 ≤ opcodeLength op → bs[2]? = some b2) :
    decode bs = .ok (instrOf op b1 b2, bs.drop (opcodeLength op)) := by
  match bs, h0 with
  | op' :: bs, h0 =>
    obtain rfl : op' = op := by simpa using h0
    have hfirst (h : 2 ≤ opcodeLength op') : bs.getD 0 0#8 = b1 := by
      simpa using congrArg (·.getD 0#8) (h1 h)
    have hsecond (h : 3 ≤ opcodeLength op') : bs.getD 1 0#8 = b2 := by
      simpa using congrArg (·.getD 0#8) (h2 h)
    obtain ⟨k, hk⟩ := Nat.exists_eq_add_of_le' (opcodeLength_bounds op').1
    rw [decode_cons_of_fits hfit, instrOf_congr hfirst hsecond, hk, List.drop_succ_cons, Nat.add_sub_cancel]

/-! The bytes from the pc to the end of memory. -/

@[simp] theorem State.length_bytesAhead (s : State) : s.bytesAhead.length = 256 - s.pc := by
  simp [State.bytesAhead]

/-- The byte `k` places ahead of the pc, where it lies in memory. -/
theorem State.getElem?_bytesAhead {s : State} {k : Nat} (h : s.pc + k < 256) :
    s.bytesAhead[k]? = some (s.mem.byteAt (s.pc + k)) := by
  have hk : k < 256 - s.pc := by omega
  simp [State.bytesAhead, hk]

/-- Where the instruction at the pc lies wholly in memory, the decoder reads from the bytes ahead the instruction that
the step fetches (R103, R104). -/
theorem decode_bytesAhead_of_fits {s : State} (hfit : s.pc + opcodeLength (s.mem.byteAt s.pc) ≤ 256) :
    decode s.bytesAhead =
      .ok (instrOf (s.mem.byteAt s.pc) (s.mem.byteAt (s.pc + 1)) (s.mem.byteAt (s.pc + 2)),
        s.bytesAhead.drop (opcodeLength (s.mem.byteAt s.pc))) := by
  have hlen := opcodeLength_bounds (s.mem.byteAt s.pc)
  refine decode_of_getElem? (State.getElem?_bytesAhead (k := 0) (by omega)) ?_
    (fun _ => State.getElem?_bytesAhead (by omega)) (fun _ => State.getElem?_bytesAhead (by omega))
  rw [State.length_bytesAhead]
  omega

/-- The decoder rejects the bytes ahead exactly where the instruction at the pc runs past the end of memory, or begins
there. -/
theorem decode_bytesAhead_eq_error_iff (s : State) :
    decode s.bytesAhead = .error .endOfBytes ↔ 256 < s.pc + opcodeLength (s.mem.byteAt s.pc) := by
  rw [decodeRejectsExactlyTruncatedBytes, State.length_bytesAhead]
  by_cases hpc : s.pc < 256
  · have hhead : s.bytesAhead.headD 0#8 = s.mem.byteAt s.pc := by
      rw [List.headD_eq_head?_getD, List.head?_eq_getElem?, State.getElem?_bytesAhead (k := 0) hpc]
      rfl
    rw [hhead]
    omega
  · have hat := opcodeLength_bounds (s.mem.byteAt s.pc)
    have hhead := opcodeLength_bounds (s.bytesAhead.headD 0#8)
    omega

/-- Settles O24: bytes ahead that are rejected end before the instruction at the pc does. -/
theorem stepOnTruncatedInstructionFaults : Obligations.StepOnTruncatedInstructionFaults :=
  fun s he hpc hreject => step_of_truncated he hpc ((decode_bytesAhead_eq_error_iff s).mp hreject)

/-- Settles O23: bytes ahead that decode hold the whole instruction at the pc, and the step fetches the same one. -/
theorem stepRunsDecodedInstruction : Obligations.StepRunsDecodedInstruction := by
  intro s i rest he hdecode
  have hfit : s.pc + opcodeLength (s.mem.byteAt s.pc) ≤ 256 := by
    rw [← not_lt, ← decode_bytesAhead_eq_error_iff, hdecode]
    exact nofun
  rw [decode_bytesAhead_of_fits hfit] at hdecode
  cases hdecode
  rw [instrOf_length]
  exact ⟨wellFormed_instrOf .., step_of_fits he hfit⟩

/-! A placed table word (log 15). -/

/-- The place of a table word leaves room for the longest instruction. -/
theorem placeAddress_le (s : State) : placeAddress s + 3 ≤ 256 := by
  unfold placeAddress
  split
  · assumption
  · decide

@[simp] theorem length_wordBytes (nbits w : Nat) : (wordBytes nbits w).length = 3 := rfl

/-- The bytes of a placed word lie in memory where the next step fetches. -/
theorem getElem?_wordBytes_of_placed (s : State) (nbits w : Nat) {k : Nat} (hk : k < 3) :
    (wordBytes nbits w)[k]? = some ((placeWord s nbits w).mem.byteAt (placeAddress s + k)) := by
  have haddr := placeAddress_le s
  have hin : placeAddress s ≤ placeAddress s + k ∧ placeAddress s + k < 256 := by omega
  have hlen : k < (wordBytes nbits w).length := hk
  rw [placeWord_mem, Memory.byteAt_copyFrom, if_pos hin, Nat.add_sub_cancel_left, List.getElem?_eq_getElem hlen,
    Option.getD_some]

/-- A table word always decodes, since its three bytes reach every opcode's length (R60), and to the instruction that
its bytes in memory name. -/
theorem decodeTableWord_of_placed (s : State) (nbits w : Nat) :
    decodeTableWord nbits w =
      some (instrOf ((placeWord s nbits w).mem.byteAt (placeAddress s))
        ((placeWord s nbits w).mem.byteAt (placeAddress s + 1))
        ((placeWord s nbits w).mem.byteAt (placeAddress s + 2))) := by
  have hlen := opcodeLength_bounds ((placeWord s nbits w).mem.byteAt (placeAddress s))
  have hdecode := decode_of_getElem? (getElem?_wordBytes_of_placed s nbits w (k := 0) (by decide)) hlen.2
    (fun _ => getElem?_wordBytes_of_placed s nbits w (by decide))
    (fun _ => getElem?_wordBytes_of_placed s nbits w (by decide))
  simp only [decodeTableWord, hdecode, Nat.add_zero]

/-- Settles O45: the placed state fetches the three bytes that `decodeTableWord` decodes, and they fit. -/
theorem placedTableWordIsTheNextInstruction : Obligations.PlacedTableWordIsTheNextInstruction := by
  intro s nbits w
  have haddr := placeAddress_le s
  have hlen := opcodeLength_bounds ((placeWord s nbits w).mem.byteAt (placeAddress s))
  refine ⟨_, decodeTableWord_of_placed s nbits w, ?_⟩
  rw [instrOf_length]
  exact step_of_fits (s := placeWord s nbits w) rfl (by rw [placeWord_pc]; omega)

end Sys2Proof.Machine

/-! What a step leaves: the completed or the faulted state, and what either keeps (10_state.md R21, R24, R26,
41_engine_cycle.md R102, R109, 20_memory.md section 3). -/

namespace Sys2Proof.Machine

/-! The completed state. -/

/-- The state that an instruction leaves which was fetched in `s` and ran to its end: `exec_past_fetch` ties it to the
meaning. -/
def State.completed (i : Instr) (s : State) : State :=
  { s with
    regs := regsAfter i s
    pc := s.pc + i.length
    running := runningAfter i s
    trace := s.trace ++ [eventOf i s] }

@[simp] theorem State.completed_regs (i : Instr) (s : State) : (s.completed i).regs = regsAfter i s := rfl
@[simp] theorem State.completed_pc (i : Instr) (s : State) : (s.completed i).pc = s.pc + i.length := rfl
@[simp] theorem State.completed_running (i : Instr) (s : State) : (s.completed i).running = runningAfter i s := rfl
@[simp] theorem State.completed_fault (i : Instr) (s : State) : (s.completed i).fault = s.fault := rfl
@[simp] theorem State.completed_mem (i : Instr) (s : State) : (s.completed i).mem = s.mem := rfl
@[simp] theorem State.completed_trace (i : Instr) (s : State) :
    (s.completed i).trace = s.trace ++ [eventOf i s] := rfl

@[simp] theorem State.faultedPastEnd_regs (s : State) : s.faultedPastEnd.regs = s.regs := rfl
@[simp] theorem State.faultedPastEnd_pc (s : State) : s.faultedPastEnd.pc = 256 := rfl
@[simp] theorem State.faultedPastEnd_running (s : State) : s.faultedPastEnd.running = s.running := rfl
@[simp] theorem State.faultedPastEnd_fault (s : State) :
    s.faultedPastEnd.fault = some (.programCounterOutOfBounds 256) := rfl
@[simp] theorem State.faultedPastEnd_mem (s : State) : s.faultedPastEnd.mem = s.mem := rfl
@[simp] theorem State.faultedPastEnd_trace (s : State) : s.faultedPastEnd.trace = s.trace := rfl

/-- The meaning of an instruction, run in the state with the pc past its bytes, leaves the completed state: no meaning
reads the pc (R25). -/
theorem exec_past_fetch (i : Instr) (s : State) :
    exec i { s with pc := s.pc + i.length } = .next (s.completed i) := by
  rw [exec_eq]
  cases i <;> rfl

/-- A step whose instruction lies wholly in memory leaves the completed state. -/
theorem step_eq_completed {s : State} (he : stepEnabled s = true)
    (hfit : s.pc + opcodeLength (s.mem.byteAt s.pc) ≤ 256) :
    step s =
      .next (s.completed
        (instrOf (s.mem.byteAt s.pc) (s.mem.byteAt (s.pc + 1)) (s.mem.byteAt (s.pc + 2)))) := by
  rw [step_of_fits he hfit, ← exec_past_fetch, instrOf_length]

/-- The two states that a step can leave from a pc in range: the completed state where the instruction fits, the
faulted state where it does not. -/
theorem step_next_of_pc_le {s t : State} (h : step s = .next t) (hpc : s.pc ≤ 256) :
    (s.pc + opcodeLength (s.mem.byteAt s.pc) ≤ 256 ∧
      t = s.completed (instrOf (s.mem.byteAt s.pc) (s.mem.byteAt (s.pc + 1)) (s.mem.byteAt (s.pc + 2)))) ∨
    (256 < s.pc + opcodeLength (s.mem.byteAt s.pc) ∧ t = s.faultedPastEnd) := by
  have he := stepEnabled_of_step_next h
  by_cases hfit : s.pc + opcodeLength (s.mem.byteAt s.pc) ≤ 256
  · rw [step_eq_completed he hfit] at h
    cases h
    exact .inl ⟨hfit, rfl⟩
  · rw [not_le] at hfit
    rw [step_of_truncated he hpc hfit] at h
    cases h
    exact .inr ⟨hfit, rfl⟩

/-! The pc and the trace. -/

/-- Settles O31: the completed state is the length of the instruction past the pc, the faulted state at 256. -/
theorem pcAdvancesByLengthAndNeverWraps : Obligations.PcAdvancesByLengthAndNeverWraps := by
  intro s t hstep hpc
  have hfault := fault_of_stepEnabled (stepEnabled_of_step_next hstep)
  obtain ⟨hfit, rfl⟩ | ⟨-, rfl⟩ := step_next_of_pc_le hstep hpc
  case inl =>
    rw [State.completed_fault, State.completed_pc, instrOf_length]
    exact ⟨fun _ => rfl, absurd hfault, Nat.le_add_right .., hfit⟩
  case inr => exact ⟨nofun, fun _ => rfl, hpc, le_rfl⟩

/-- Settles O32: the completed state has one more event and no record, and the other state is the faulted one. -/
theorem completedStepEmitsOneEventFaultedStepNone : Obligations.CompletedStepEmitsOneEventFaultedStepNone := by
  intro s t hstep hpc
  have hfault := fault_of_stepEnabled (stepEnabled_of_step_next hstep)
  obtain ⟨-, rfl⟩ | ⟨-, rfl⟩ := step_next_of_pc_le hstep hpc
  case inl => exact .inl ⟨hfault, _, rfl⟩
  case inr => exact .inr rfl

/-! The register frame. -/

/-- A fetched instruction leaves every register but the one its first operand byte names, and at an opcode other than
those of LOAD, ADD and AND that one too (R21, R135). -/
theorem get_regsAfter_instrOf {op b1 b2 : Byte} {q : Reg} (s : State)
    (h : op ∉ [0x01#8, 0x02#8, 0x03#8] ∨ q ≠ regId b1) :
    (regsAfter (instrOf op b1 b2) s).get q = s.regs.get q := by
  have replaced (v : Byte) (hop : op ∈ [0x01#8, 0x02#8, 0x03#8]) :
      (s.regs.set (regId b1) v).get q = s.regs.get q :=
    RegFile.get_set_of_ne s.regs v (h.resolve_left (not_not_intro hop))
  obtain rfl | rfl | rfl | rfl | rfl | hunknown := opcode_cases op
  iterate 3 exact replaced _ (by decide)
  iterate 2 rfl
  rw [instrOf_of_notMem hunknown]
  rfl

/-- Settles O30: a completed step leaves the registers that its instruction leaves, a faulted one all of them. -/
theorem onlyLoadAddAndWriteTheirDestination : Obligations.OnlyLoadAddAndWriteTheirDestination := by
  intro s t q hstep hq
  have he := stepEnabled_of_step_next hstep
  by_cases hpc : s.pc ≤ 256
  · obtain ⟨-, rfl⟩ | ⟨-, rfl⟩ := step_next_of_pc_le hstep hpc
    case inl => exact get_regsAfter_instrOf s hq
    case inr => rfl
  · rw [step_of_past_range he (not_le.mp hpc)] at hstep
    cases hstep
    rfl

/-! The bytes a step reads. -/

/-- No meaning reads memory: over any other memory an instruction completes with the same effect. -/
theorem completed_mem_replaced (i : Instr) (s : State) (m : Memory) :
    State.completed i { s with mem := m } = { s.completed i with mem := m } := by
  cases i <;> rfl

/-- Settles O34: the memories agree on the opcode byte, hence on the length, and on the operand bytes within it; past
the end of memory no byte is read. -/
theorem stepReadsOnlyFetchedBytes : Obligations.StepReadsOnlyFetchedBytes := by
  intro s t m hagree hstep
  have hs := stepEnabled_of_step_next hstep
  have he : stepEnabled { s with mem := m } = true := hs
  have hlen := opcodeLength_bounds (s.mem.byteAt s.pc)
  have hop (h : s.pc < 256) : m.byteAt s.pc = s.mem.byteAt s.pc := hagree 0 hlen.1 h
  obtain ⟨-, -, ⟨-, -, -, hfit, -⟩ | ⟨hpc, hlong, rfl⟩ | ⟨hpast, rfl⟩⟩ := step_next_cases hstep
  case inl =>
    have hop := hop (by omega)
    have hinstr :
        instrOf (s.mem.byteAt s.pc) (m.byteAt (s.pc + 1)) (m.byteAt (s.pc + 2)) =
          instrOf (s.mem.byteAt s.pc) (s.mem.byteAt (s.pc + 1)) (s.mem.byteAt (s.pc + 2)) :=
      instrOf_congr (fun h => hagree 1 h (by omega)) (fun h => hagree 2 h (by omega))
    rw [step_eq_completed hs hfit] at hstep
    cases hstep
    rw [step_eq_completed he (hop.symm ▸ hfit), completed_mem_replaced]
    simp only [hop, hinstr]
  case inr.inl =>
    have hlong' : 256 < s.pc + opcodeLength (m.byteAt s.pc) := by
      have hlen' := opcodeLength_bounds (m.byteAt s.pc)
      by_cases hlt : s.pc < 256
      · rwa [hop hlt]
      · omega
    exact step_of_truncated he hpc hlong'
  case inr.inr => exact step_of_past_range he hpast

/-! The stuck states. -/

theorem noStepReason_of_not_running {s : State} (h : s.running = false) : noStepReason s = some .notRunning := by
  simp [noStepReason, h]

theorem noStepReason_of_fault {s : State} {f : FaultRecord} (hrun : s.running = true) (hf : s.fault = some f) :
    noStepReason s = some (.runFaulted f) := by
  simp [noStepReason, hrun, hf]

/-- Settles O26: a step is stuck under the name that the check before it gives. -/
theorem stuckStatesAreNamed : Obligations.StuckStatesAreNamed :=
  fun _ => ⟨fun h => step_eq_fault_iff.mpr (noStepReason_of_not_running h),
    fun _ hrun hf => step_eq_fault_iff.mpr (noStepReason_of_fault hrun hf)⟩

end Sys2Proof.Machine

/-! The invariant of a launch (`State.Inv`): every step keeps it. Its clauses on control and trace hold of every run,
whatever form its memory has, so they stand here on their own. -/

namespace Sys2Proof.Machine

/-- The clauses of `State.Inv` other than the canonical form of memory: `inv_iff` ties the two. -/
structure State.ControlInv (s : State) : Prop where
  pc_le : s.pc ≤ 256
  trace_length_le : s.trace.length ≤ s.pc
  fault_past_end : ∀ f, s.fault = some f → f = .programCounterOutOfBounds 256 ∧ s.pc = 256 ∧ s.running = true
  stopped_of_hlt : Event.hlt ∈ s.trace → s.running = false
  hlt_of_stopped : s.running = false → (s.pc = 0 ∧ s.trace = []) ∨ s.trace.getLast? = some .hlt

theorem inv_iff {s : State} : s.Inv ↔ s.ControlInv ∧ s.mem.wf = true := by
  constructor
  · rintro ⟨hpc, hwf, htrace, hfault, hstopped, hhlt⟩
    exact ⟨⟨hpc, htrace, hfault, hstopped, hhlt⟩, hwf⟩
  · rintro ⟨⟨hpc, htrace, hfault, hstopped, hhlt⟩, hwf⟩
    exact ⟨hpc, hwf, htrace, hfault, hstopped, hhlt⟩

/-! The instruction that stops the run. -/

theorem instr_length_pos (i : Instr) : 0 < i.length := by
  cases i <;> exact Nat.succ_pos _

/-- HLT alone reports the HLT event (R175). -/
theorem eventOf_eq_hlt_iff {i : Instr} {s : State} : eventOf i s = .hlt ↔ i = .hlt := by
  cases i <;> simp [eventOf]

/-- Of the instructions of a run, HLT alone stops it (R29). -/
theorem runningAfter_eq_false_iff {i : Instr} {s : State} (hrun : s.running = true) :
    runningAfter i s = false ↔ i = .hlt := by
  rw [runningAfter_eq_ite, hrun]
  simp

/-- A step that stops the run reports HLT as its last event (R145). -/
theorem getLast?_trace_of_step_stops {s t : State} (h : step s = .next t) (hstop : t.running = false) :
    t.trace.getLast? = some .hlt := by
  obtain ⟨hrun, -⟩ := stepEnabled_iff.mp (stepEnabled_of_step_next h)
  by_cases hpc : s.pc ≤ 256
  · obtain ⟨-, rfl⟩ | ⟨-, rfl⟩ := step_next_of_pc_le h hpc
    case inl =>
      rw [State.completed_running, runningAfter_eq_false_iff hrun] at hstop
      rw [State.completed_trace, eventOf_eq_hlt_iff.mpr hstop, List.getLast?_concat]
    case inr =>
      rw [State.faultedPastEnd_running, hrun] at hstop
      cases hstop
  · obtain ⟨hlt, -⟩ := (running_false_iff_of_step_next h).mp hstop
    omega

/-! The step. -/

/-- A completed instruction keeps the clauses on control and trace: it moves the pc by at least one byte and adds one
event, which is HLT exactly where it stops the run. -/
theorem State.ControlInv.completed {i : Instr} {s : State} (hs : s.ControlInv) (hrun : s.running = true)
    (hfault : s.fault = none) (hfit : s.pc + i.length ≤ 256) : (s.completed i).ControlInv where
  pc_le := hfit
  trace_length_le := by
    have htrace := hs.trace_length_le
    have hlen := instr_length_pos i
    rw [completed_trace, completed_pc, List.length_append, List.length_singleton]
    omega
  fault_past_end := by
    rw [completed_fault, hfault]
    exact nofun
  stopped_of_hlt := by
    rw [completed_trace, List.mem_append, List.mem_singleton]
    rintro (hold | hnew)
    · exact absurd (hs.stopped_of_hlt hold) (by simp [hrun])
    · exact (runningAfter_eq_false_iff hrun).mpr (eventOf_eq_hlt_iff.mp hnew.symm)
  hlt_of_stopped := by
    intro hstop
    rw [completed_running, runningAfter_eq_false_iff hrun] at hstop
    right
    rw [completed_trace, eventOf_eq_hlt_iff.mpr hstop, List.getLast?_concat]

/-- A fault keeps the clauses on control and trace: it adds no event and leaves the run on (R165, D5). -/
theorem State.ControlInv.faultedPastEnd {s : State} (hs : s.ControlInv) (hrun : s.running = true) :
    s.faultedPastEnd.ControlInv where
  pc_le := le_rfl
  trace_length_le := hs.trace_length_le.trans hs.pc_le
  fault_past_end := by
    rintro f ⟨⟩
    exact ⟨rfl, rfl, hrun⟩
  stopped_of_hlt := hs.stopped_of_hlt
  hlt_of_stopped := fun hstop => absurd hstop (by simp [hrun])

theorem State.ControlInv.of_step {s t : State} (hs : s.ControlInv) (h : step s = .next t) : t.ControlInv := by
  obtain ⟨hrun, hfault⟩ := stepEnabled_iff.mp (stepEnabled_of_step_next h)
  obtain ⟨hfit, rfl⟩ | ⟨-, rfl⟩ := step_next_of_pc_le h hs.pc_le
  case inl =>
    rw [← instrOf_length] at hfit
    exact hs.completed hrun hfault hfit
  case inr => exact hs.faultedPastEnd hrun

/-- Settles O35: a step keeps the clauses on control and trace, and it keeps memory. -/
theorem stepKeepsInv : Obligations.StepKeepsInv := by
  intro s t hs hstep
  obtain ⟨hcontrol, hwf⟩ := inv_iff.mp hs
  exact inv_iff.mpr ⟨hcontrol.of_step hstep, (mem_of_step_next hstep).symm ▸ hwf⟩

/-! Construction. -/

theorem readReg_reset (r : Reg) : State.reset.readReg r = 0#8 := by
  cases r <;> rfl

/-- Settles O1, by the fields of the constructed state: its memory lists no byte, so every address reads MEM_INIT. -/
theorem resetHoldsConstructionValues : Obligations.ResetHoldsConstructionValues :=
  ⟨readReg_reset, fun _ => rfl, rfl, rfl, rfl, rfl⟩

/-- Settles O2: no step has been taken, so there is no event and no record, and the pc is 0. -/
theorem resetSatisfiesInv : Obligations.ResetSatisfiesInv :=
  ⟨Nat.zero_le 256, Memory.wf_reset, le_rfl, nofun, nofun, fun _ => .inl ⟨rfl, rfl⟩⟩

end Sys2Proof.Machine

/-! The run: run start, the two endings, and the bound (41_engine_cycle.md R100, R106 to R108). -/

namespace Sys2Proof.Machine

/-! Run start. -/

theorem stepEnabled_runStart (s : State) : stepEnabled (runStart s) = true := rfl

/-- Settles O3, by the fields of the state that run start leaves. -/
theorem runStartResetsControlAndKeepsData : Obligations.RunStartResetsControlAndKeepsData :=
  fun s => ⟨runStart_pc s, runStart_running s, runStart_fault s, runStart_trace s, fun _ => rfl,
    .of_mem_eq (runStart_mem s), stepEnabled_runStart s⟩

/-- Run start meets the clauses on control and trace from any state. -/
theorem controlInv_runStart (s : State) : (runStart s).ControlInv where
  pc_le := Nat.zero_le 256
  trace_length_le := le_rfl
  fault_past_end := nofun
  stopped_of_hlt := nofun
  hlt_of_stopped := nofun

/-! The loop. -/

theorem runLoop_succ_of_next {s t : State} (h : step s = .next t) (n : Nat) :
    runLoop (n + 1) s = runLoop n t := by
  simp only [runLoop, h]

theorem step_ne_next_of_not_enabled {s : State} (h : stepEnabled s = false) (t : State) : step s ≠ .next t := by
  intro hstep
  rw [stepEnabled_of_step_next hstep] at h
  cases h

/-- The host's iteration of the machine, by its first step. -/
theorem core_run_succ_of_next {s t : State} (h : step s = .next t) (k : Nat) :
    Sys2Proof.core.run (k + 1) s = Sys2Proof.core.run k t := by
  have hcore : Sys2Proof.core.step s = .next t := h
  simp only [Host.Core.run, hcore]

/-- A run of at most `n` steps takes some number of steps of the machine, all of which answer next states. -/
theorem exists_core_run_eq_runLoop (n : Nat) (s : State) :
    ∃ k, k ≤ n ∧ Sys2Proof.core.run k s = .next (runLoop n s) := by
  induction n generalizing s with
  | zero => exact ⟨0, le_rfl, rfl⟩
  | succ n ih =>
    cases he : stepEnabled s with
    | false =>
      rw [runLoop_of_stuck (step_ne_next_of_not_enabled he)]
      exact ⟨0, Nat.zero_le _, rfl⟩
    | true =>
      obtain ⟨t, hstep⟩ := exists_step_next_of_enabled he
      obtain ⟨k, hk, hrun⟩ := ih t
      refine ⟨k + 1, Nat.succ_le_succ hk, ?_⟩
      rw [runLoop_succ_of_next hstep]
      exact (core_run_succ_of_next hstep k).trans hrun

/-- The loop ends within as many steps as there are values of the pc left: a step that does not end the run moves the
pc up, and the pc stays in 0..256 (R26, R108). -/
theorem stepEnabled_runLoop_eq_false (n : Nat) {s : State} (hpc : s.pc ≤ 256) (hn : 256 < s.pc + n) :
    stepEnabled (runLoop n s) = false := by
  induction n generalizing s with
  | zero => omega
  | succ n ih =>
    cases he : stepEnabled s with
    | false => rwa [runLoop_of_stuck (step_ne_next_of_not_enabled he)]
    | true =>
      obtain ⟨t, hstep⟩ := exists_step_next_of_enabled he
      rw [runLoop_succ_of_next hstep]
      obtain ⟨hmove, -, -, ht⟩ := pcAdvancesByLengthAndNeverWraps s t hstep hpc
      by_cases hfault : t.fault = none
      · have hlen := opcodeLength_bounds (s.mem.byteAt s.pc)
        have hmove := hmove hfault
        exact ih ht (by omega)
      · have hstop : stepEnabled t = false :=
          Bool.eq_false_iff.mpr fun ht => hfault (fault_of_stepEnabled ht)
        rwa [runLoop_of_stuck (step_ne_next_of_not_enabled hstop)]

/-! The whole run. -/

theorem controlInv_run (s : State) : (run s).ControlInv :=
  runLoop_keeps (fun _ _ hs hstep => hs.of_step hstep) 257 (controlInv_runStart s)

theorem stepEnabled_run (s : State) : stepEnabled (run s) = false :=
  stepEnabled_runLoop_eq_false 257 (Nat.zero_le 256) (by rw [runStart_pc]; decide)

/-- A run that has stopped reports HLT as its last event: run start leaves it on, and the step that stops it reports
HLT. -/
theorem getLast?_trace_of_run_stopped (s : State) : (run s).running = false → (run s).trace.getLast? = some .hlt :=
  runLoop_keeps (P := fun u => u.running = false → u.trace.getLast? = some .hlt)
    (fun _ _ _ hstep => getLast?_trace_of_step_stops hstep) 257 nofun

/-- Settles O37: the loop is a number of steps of the machine, and 257 are enough from pc 0. -/
theorem runTakesAtMost257Steps : Obligations.RunTakesAtMost257Steps := by
  intro s
  obtain ⟨n, hn, hrun⟩ := exists_core_run_eq_runLoop 257 (runStart s)
  exact ⟨n, hn, hrun, stepEnabled_run s⟩

/-- Settles O36: where the run ends no step is enabled, so it has stopped, or it holds a record with the flag set; the
invariant says what each means. -/
theorem runEndsHaltedOrFaulted : Obligations.RunEndsHaltedOrFaulted := by
  intro s
  have hinv := controlInv_run s
  have hend : ¬ ((run s).running = true ∧ (run s).fault = none) := by
    rw [← stepEnabled_iff, stepEnabled_run s]
    decide
  cases hfault : (run s).fault with
  | none =>
    have hstop : (run s).running = false := Bool.eq_false_iff.mpr fun hrun => hend ⟨hrun, hfault⟩
    exact .inl ⟨⟨hstop, hfault⟩, getLast?_trace_of_run_stopped s hstop⟩
  | some f =>
    obtain ⟨rfl, hpc, hrun⟩ := hinv.fault_past_end f hfault
    refine .inr ⟨⟨hrun, hfault⟩, hpc, fun hhlt => ?_⟩
    rw [hinv.stopped_of_hlt hhlt] at hrun
    cases hrun

end Sys2Proof.Machine

/-! The host: its moves, and when the final state can be read (20_memory.md R43, R44, 60_exceptions.md R178). -/

namespace Sys2Proof.Machine

/-! The moves. -/

theorem hostAct_load_of_idle {s : State} (bs : List Byte) (h : stepEnabled s = false) :
    hostAct (.load bs) s = .next (load bs s) := by
  simp [hostAct, h]

theorem hostAct_preload_of_idle {s : State} (r : Reg) (v : Int) (h : stepEnabled s = false) :
    hostAct (.preload r v) s = .next (s.writeReg r v) := by
  simp [hostAct, h]

theorem hostAct_run_of_idle {s : State} (h : stepEnabled s = false) : hostAct .run s = .next (run s) := by
  simp [hostAct, h]

theorem hostAct_of_enabled {s : State} (a : HostAction) (h : stepEnabled s = true) :
    hostAct a s = .refused .runInProgress := by
  simp [hostAct, h]

/-- The clauses speak of control and trace only, so whatever keeps these keeps them: a load and a preload do. -/
theorem State.ControlInv.congr {s t : State} (hs : s.ControlInv) (hcontrol : SameControl s t)
    (htrace : t.trace = s.trace) : t.ControlInv := by
  obtain ⟨hpc, hrun, hfault⟩ := hcontrol
  constructor
  · exact hpc ▸ hs.pc_le
  · exact hpc ▸ htrace ▸ hs.trace_length_le
  · rw [hpc, hrun, hfault]
    exact hs.fault_past_end
  · rw [htrace, hrun]
    exact hs.stopped_of_hlt
  · rw [hpc, htrace, hrun]
    exact hs.hlt_of_stopped

/-- Settles O44: a load keeps the form of memory, a preload writes a register only, and a run starts anew from the same
memory. -/
theorem hostActionsKeepInv : Obligations.HostActionsKeepInv := by
  intro a s t hs hact
  obtain ⟨hcontrol, hwf⟩ := inv_iff.mp hs
  obtain ⟨-, ⟨bs, -, rfl⟩ | ⟨r, v, -, rfl⟩ | ⟨-, rfl⟩⟩ := hostAct_next_cases hact
  case inl => exact inv_iff.mpr ⟨hcontrol.congr ⟨rfl, rfl, rfl⟩ rfl, Memory.wf_copyFrom bs 0 s.mem hwf⟩
  case inr.inl => exact inv_iff.mpr ⟨hcontrol.congr ⟨rfl, rfl, rfl⟩ rfl, hwf⟩
  case inr.inr => exact inv_iff.mpr ⟨controlInv_run s, (run_mem s).symm ▸ hwf⟩

/-- Settles O38: the copy from address 0 reads as `Memory.byteAt_copyFrom` says. -/
theorem loaderCopiesFromZeroAndTruncates : Obligations.LoaderCopiesFromZeroAndTruncates := by
  intro bs s hidle
  refine ⟨_, hostAct_load_of_idle bs hidle, fun a ha => ?bytes, fun _ => rfl, ⟨rfl, rfl, rfl⟩, rfl⟩
  case bytes => rw [load_mem, Memory.byteAt_copyFrom, if_pos ⟨Nat.zero_le a, ha⟩, Nat.sub_zero]

/-- Settles O39: a preload is the register write of O4. -/
theorem preloadStoresLowEightBits : Obligations.PreloadStoresLowEightBits := by
  intro r v s hidle
  obtain ⟨hlow, -, hframe⟩ := registerWriteStoresLowEightBits s r v
  obtain ⟨hregs, hcontrol, hmem, htrace⟩ := hframe
  exact ⟨_, hostAct_preload_of_idle r v hidle, hlow, hregs, hmem, hcontrol, htrace⟩

/-! Reading the final state. -/

theorem readFinalState_of_ended {s : State} (h : runEnded s = true) : readFinalState s = some s :=
  readFinalState_eq_some.mpr ⟨h, rfl⟩

theorem readFinalState_eq_none_iff {s : State} : readFinalState s = none ↔ runEnded s = false := by
  cases h : runEnded s <;> simp [readFinalState, h]

/-- Where the final state is hidden, so is its snapshot. -/
theorem finalSnapshot_eq_none {s : State} (h : readFinalState s = none) : finalSnapshot s = none := by
  rw [finalSnapshot, h, Option.map_none]

theorem finalSnapshot_of_ended {s : State} (h : runEnded s = true) : finalSnapshot s = some s.regs := by
  rw [finalSnapshot, readFinalState_of_ended h, Option.map_some]

/-- The model's test for the end of a run, as a proposition (log 11). -/
theorem runEnded_iff {s : State} : runEnded s = true ↔ s.fault ≠ none ∨ (s.running = false ∧ s.pc ≠ 0) := by
  simp [runEnded, Option.isSome_iff_ne_none]

/-- Under the invariant the test tells exactly the two endings of R107: a record is the one of a fault past the end, and
a stopped CORE has the pc past 0 exactly where it reported HLT. -/
theorem runEnded_iff_faulted_or_halted {s : State} (hs : s.ControlInv) :
    runEnded s = true ↔ s.Faulted ∨ (s.Halted ∧ s.trace.getLast? = some .hlt) := by
  rw [runEnded_iff]
  constructor
  · intro hend
    cases hfault : s.fault with
    | some f =>
      obtain ⟨rfl, -, hrun⟩ := hs.fault_past_end f hfault
      exact .inl ⟨hrun, hfault⟩
    | none =>
      obtain ⟨hstop, hpc⟩ := hend.resolve_left (not_not_intro hfault)
      have hlast := (hs.hlt_of_stopped hstop).resolve_left fun hnew => hpc hnew.1
      exact .inr ⟨⟨hstop, hfault⟩, hlast⟩
  · rintro (⟨-, hfault⟩ | ⟨⟨hstop, -⟩, hlast⟩)
    · exact .inl (by simp [hfault])
    · have hevents : 0 < s.trace.length := List.length_pos_of_mem (List.mem_of_getLast? hlast)
      have htrace := hs.trace_length_le
      exact .inr ⟨hstop, by omega⟩

/-- A whole run leaves a state that the test takes for ended (R107). -/
theorem runEnded_run (s : State) : runEnded (run s) = true := by
  rw [runEnded_iff_faulted_or_halted (controlInv_run s)]
  exact (runEndsHaltedOrFaulted s).symm.imp_left And.left

/-- Settles O40: the run ends, so its state and its registers can be read, and it keeps memory. -/
theorem finalStateIsReadableAfterRun : Obligations.FinalStateIsReadableAfterRun :=
  fun s hidle => ⟨_, hostAct_run_of_idle hidle, readFinalState_of_ended (runEnded_run s),
    finalSnapshot_of_ended (runEnded_run s), .of_mem_eq (run_mem s)⟩

/-- Settles O42: the model's test decides the read, and under the invariant it tells the two endings. -/
theorem finalStateIsReadableExactlyAfterRunEnds : Obligations.FinalStateIsReadableExactlyAfterRunEnds := by
  intro s hs
  obtain ⟨hcontrol, -⟩ := inv_iff.mp hs
  rw [← runEnded_iff_faulted_or_halted hcontrol, readFinalState_eq_none_iff, Bool.not_eq_true]
  exact ⟨⟨fun hread => (readFinalState_eq_some.mp hread).1, readFinalState_of_ended⟩, Iff.rfl⟩

/-- Settles O41: at construction there is no record and the pc is 0, and a load or a preload keeps what the test looks
at. -/
theorem finalStateIsHiddenBeforeFirstRun : Obligations.FinalStateIsHiddenBeforeFirstRun := by
  have hreset : readFinalState State.reset = none := rfl
  refine ⟨hreset, finalSnapshot_eq_none hreset, fun a s t hrun hact hhidden => ?_⟩
  have hkept : readFinalState t = none := by
    rw [readFinalState_eq_none_iff] at hhidden ⊢
    obtain ⟨-, ⟨bs, -, rfl⟩ | ⟨r, v, -, rfl⟩ | ⟨rfl, -⟩⟩ := hostAct_next_cases hact
    case inl => exact hhidden
    case inr.inl => exact hhidden
    case inr.inr => exact absurd rfl hrun
  exact ⟨hkept, finalSnapshot_eq_none hkept⟩

/-- Settles O43: while a run is in progress the host's check refuses every move, and the run has not ended. -/
theorem hostIsRefusedDuringRun : Obligations.HostIsRefusedDuringRun := by
  intro a s he
  have hhidden : readFinalState s = none := by
    rw [readFinalState_eq_none_iff, Bool.eq_false_iff]
    intro hended
    rw [stepEnabled_of_runEnded hended] at he
    cases he
  exact ⟨hostAct_of_enabled a he, hhidden, finalSnapshot_eq_none hhidden⟩

end Sys2Proof.Machine

/-! Written lines (30_encoding.md R70, the spec's own choice D15; log 18): a line is cut back into the words it was
made of, and each word reads back as the byte it stands for. -/

namespace Sys2Proof.Machine

/-! Words: the pieces of a line between its spaces and commas. -/

/-- The characters at which a line is cut. -/
def separators : List Char := [' ', ',', ';']

/-- A nonempty text that a line is not cut within. -/
structure IsWord (cs : List Char) : Prop where
  ne_nil : cs ≠ []
  no_separator : ∀ c ∈ cs, c ∉ separators

theorem IsWord.space_notMem {w : List Char} (hw : IsWord w) : ' ' ∉ w :=
  fun h => hw.no_separator ' ' h (by decide)

theorem IsWord.comma_notMem {w : List Char} (hw : IsWord w) : ',' ∉ w :=
  fun h => hw.no_separator ',' h (by decide)

theorem IsWord.semicolon_notMem {w : List Char} (hw : IsWord w) : ';' ∉ w :=
  fun h => hw.no_separator ';' h (by decide)

theorem IsWord.append {v w : List Char} (hv : IsWord v) (hw : ∀ c ∈ w, c ∉ separators) : IsWord (v ++ w) where
  ne_nil := List.append_ne_nil_of_left_ne_nil hv.ne_nil w
  no_separator := fun c hc => (List.mem_append.mp hc).elim (hv.no_separator c) (hw c)

theorem IsWord.head?_ne_space {w : List Char} (hw : IsWord w) : w.head? ≠ some ' ' :=
  fun h => hw.space_notMem (List.mem_of_head? h)

theorem IsWord.getLast?_ne_space {w : List Char} (hw : IsWord w) : w.getLast? ≠ some ' ' :=
  fun h => hw.space_notMem (List.mem_of_getLast? h)

/-! How a line is cut. -/

/-- Text without a semicolon holds no comment. -/
theorem stripComment_of_notMem {cs : List Char} (h : ';' ∉ cs) : stripComment cs = cs := by
  induction cs with
  | nil => rfl
  | cons c cs ih =>
    rw [List.mem_cons, not_or] at h
    obtain ⟨hc, hcs⟩ := h
    rw [stripComment, if_neg (Ne.symm hc), ih hcs]

theorem dropWhile_space_eq_self {cs : List Char} (h : cs.head? ≠ some ' ') : cs.dropWhile (· == ' ') = cs := by
  cases cs with
  | nil => rfl
  | cons c cs =>
    have hc : c ≠ ' ' := by simpa using h
    simp [hc]

/-- Text that neither begins nor ends with a space has none to trim. -/
theorem trimSpaces_eq_self {cs : List Char} (hhead : cs.head? ≠ some ' ') (hlast : cs.getLast? ≠ some ' ') :
    trimSpaces cs = cs := by
  rw [← List.head?_reverse] at hlast
  rw [trimSpaces, dropWhile_space_eq_self hhead, dropWhile_space_eq_self hlast, List.reverse_reverse]

theorem trimSpaces_space_cons (cs : List Char) : trimSpaces (' ' :: cs) = trimSpaces cs := rfl

theorem IsWord.trimSpaces_eq {w : List Char} (hw : IsWord w) : trimSpaces w = w :=
  trimSpaces_eq_self hw.head?_ne_space hw.getLast?_ne_space

/-- Text without a comma is one operand. -/
theorem splitOperands_of_notMem {w : List Char} (h : ',' ∉ w) : splitOperands w = [w] := by
  induction w with
  | nil => rfl
  | cons c w ih =>
    rw [List.mem_cons, not_or] at h
    obtain ⟨hc, hw⟩ := h
    rw [splitOperands, if_neg (Ne.symm hc), ih hw]

/-- Text up to a comma is the first operand. -/
theorem splitOperands_append_comma {w : List Char} (h : ',' ∉ w) (cs : List Char) :
    splitOperands (w ++ ',' :: cs) = w :: splitOperands cs := by
  induction w with
  | nil => rw [List.nil_append, splitOperands, if_pos rfl]
  | cons c w ih =>
    rw [List.mem_cons, not_or] at h
    obtain ⟨hc, hw⟩ := h
    rw [List.cons_append, splitOperands, if_neg (Ne.symm hc), ih hw]

/-- The text up to the first space is the mnemonic; what follows, where it begins and ends with no space, is cut into
operands. -/
theorem splitLine_append_space {mnemonic rest : List Char} (hm : ' ' ∉ mnemonic) (hne : rest ≠ [])
    (hhead : rest.head? ≠ some ' ') (hlast : rest.getLast? ≠ some ' ') :
    splitLine (mnemonic ++ ' ' :: rest) = (mnemonic, (splitOperands rest).map trimSpaces) := by
  have hkeep : ∀ c ∈ mnemonic, (c != ' ') = true := by
    intro c hc
    rw [bne_iff_ne]
    rintro rfl
    exact hm hc
  have htake : (mnemonic ++ ' ' :: rest).takeWhile (· != ' ') = mnemonic := by
    rw [List.takeWhile_append_of_pos hkeep]
    simp
  have hdrop : (mnemonic ++ ' ' :: rest).dropWhile (· != ' ') = ' ' :: rest := by
    rw [List.dropWhile_append_of_pos hkeep]
    simp
  simp [splitLine, htake, hdrop, trimSpaces_space_cons, trimSpaces_eq_self hhead hlast, hne]

/-- A written line is assembled from its mnemonic and its operands (R70). -/
theorem assembleLine_append_space {mnemonic rest : List Char} (hm : IsWord mnemonic) (hne : rest ≠ [])
    (hhead : rest.head? ≠ some ' ') (hlast : rest.getLast? ≠ some ' ') (hcomment : ';' ∉ rest) :
    assembleLine (mnemonic ++ ' ' :: rest) =
      assembleFields mnemonic ((splitOperands rest).map trimSpaces) := by
  have hsemicolon : ';' ∉ mnemonic ++ ' ' :: rest := by
    simp [hm.semicolon_notMem, hcomment]
  have hlineHead : (mnemonic ++ ' ' :: rest).head? ≠ some ' ' := by
    rw [List.head?_append_of_ne_nil _ hm.ne_nil]
    exact hm.head?_ne_space
  have hlineLast : (mnemonic ++ ' ' :: rest).getLast? ≠ some ' ' := by
    rw [List.getLast?_append_cons, List.getLast?_cons_of_ne_nil hne]
    exact hlast
  simp only [assembleLine, stripComment_of_notMem hsemicolon, trimSpaces_eq_self hlineHead hlineLast,
    splitLine_append_space hm.space_notMem hne hhead hlast]

theorem assembleLine_one_operand {mnemonic w : List Char} (hm : IsWord mnemonic) (hw : IsWord w) :
    assembleLine (mnemonic ++ ' ' :: w) = assembleFields mnemonic [w] := by
  rw [assembleLine_append_space hm hw.ne_nil hw.head?_ne_space hw.getLast?_ne_space hw.semicolon_notMem,
    splitOperands_of_notMem hw.comma_notMem, List.map_singleton, hw.trimSpaces_eq]

theorem assembleLine_two_operands {mnemonic v w : List Char} (hm : IsWord mnemonic) (hv : IsWord v) (hw : IsWord w) :
    assembleLine (mnemonic ++ ' ' :: (v ++ ',' :: ' ' :: w)) = assembleFields mnemonic [v, w] := by
  have hhead : (v ++ ',' :: ' ' :: w).head? ≠ some ' ' := by
    rw [List.head?_append_of_ne_nil _ hv.ne_nil]
    exact hv.head?_ne_space
  have hlast : (v ++ ',' :: ' ' :: w).getLast? ≠ some ' ' := by
    rw [List.getLast?_append_cons, List.getLast?_cons_cons, List.getLast?_cons_of_ne_nil hw.ne_nil]
    exact hw.getLast?_ne_space
  have hcomment : ';' ∉ v ++ ',' :: ' ' :: w := by
    simp [hv.semicolon_notMem, hw.semicolon_notMem]
  have hsecond : ',' ∉ ' ' :: w := by
    simp [hw.comma_notMem]
  rw [assembleLine_append_space hm (by simp) hhead hlast hcomment, splitOperands_append_comma hv.comma_notMem,
    splitOperands_of_notMem hsecond, List.map_cons, List.map_singleton, trimSpaces_space_cons, hv.trimSpaces_eq,
    hw.trimSpaces_eq]

/-! Numerals. -/

theorem numeralFrom_append (base acc : Nat) (cs ds : List Char) :
    numeralFrom base acc (cs ++ ds) = (numeralFrom base acc cs).bind fun m => numeralFrom base m ds := by
  induction cs generalizing acc with
  | nil => rfl
  | cons c cs ih =>
    rw [List.cons_append, numeralFrom, numeralFrom]
    cases digitValue c with
    | none => rfl
    | some v =>
      by_cases hv : v < base
      · simp only [if_pos hv, ih]
      · simp only [if_neg hv, Option.bind_none]

theorem numeralFrom_singleton {base acc v : Nat} {c : Char} (hc : digitValue c = some v) (hv : v < base) :
    numeralFrom base acc [c] = some (acc * base + v) := by
  simp only [numeralFrom, hc, if_pos hv]

/-- A decimal digit is written with the character that the digit table reads back. -/
theorem digitValue_digitChar {d : Nat} (h : d < 10) : digitValue d.digitChar = some d := by
  interval_cases d <;> rfl

/-- A decimal numeral reads back as the number it was written from: its last digit is the remainder by 10, and the
digits before it are the numeral of the quotient. -/
theorem numeralFrom_toDigits (n : Nat) : numeralFrom 10 0 (Nat.toDigits 10 n) = some n := by
  induction n using Nat.strong_induction_on with
  | _ n ih =>
    by_cases hlt : n < 10
    · rw [Nat.toDigits_of_lt_base hlt, numeralFrom_singleton (digitValue_digitChar hlt) hlt, Nat.zero_mul,
        Nat.zero_add]
    · have hdigit : n % 10 < 10 := Nat.mod_lt n (by decide)
      rw [Nat.toDigits_of_base_le (by decide) (not_lt.mp hlt), numeralFrom_append, ih (n / 10) (by omega),
        Option.bind_some, numeralFrom_singleton (digitValue_digitChar hdigit) hdigit, Nat.div_add_mod']

/-- A numeral whose value is a byte's reads as that byte. -/
theorem byteNumeral_of_numeralFrom {base : Nat} {cs : List Char} {b : Byte} (hne : cs ≠ [])
    (h : numeralFrom base 0 cs = some b.toNat) : byteNumeral base cs = some b := by
  cases cs with
  | nil => exact absurd rfl hne
  | cons c cs => simp only [byteNumeral, h, b.isLt, if_true, BitVec.ofNat_toNat, BitVec.setWidth_eq]

/-! Bytes in decimal, and the immediates. -/

theorem decimalText_ne_nil (b : Byte) : decimalText b ≠ [] := Nat.toDigits_ne_nil

theorem isDigit_of_mem_decimalText {b : Byte} {c : Char} (h : c ∈ decimalText b) : c.isDigit = true :=
  Nat.isDigit_of_mem_toDigits (by decide) (by decide) h

theorem byteNumeral_decimalText (b : Byte) : byteNumeral 10 (decimalText b) = some b :=
  byteNumeral_of_numeralFrom (decimalText_ne_nil b) (numeralFrom_toDigits b.toNat)

/-- No digit is a character at which a line is cut. -/
theorem notMem_separators_of_isDigit {c : Char} (h : c.isDigit = true) : c ∉ separators := by
  have hseparators : ∀ c ∈ separators, c.isDigit = false := by simp [separators]
  intro hc
  rw [hseparators c hc] at h
  cases h

theorem isWord_decimalText (b : Byte) : IsWord (decimalText b) :=
  ⟨decimalText_ne_nil b, fun _ hc => notMem_separators_of_isDigit (isDigit_of_mem_decimalText hc)⟩

/-- A text of digits is read as a decimal immediate: the marks of the other two bases are letters. -/
theorem parseImmediate_of_digits {cs : List Char} (h : ∀ c ∈ cs, c.isDigit = true) :
    parseImmediate cs = byteNumeral 10 cs := by
  unfold parseImmediate
  split
  · exact absurd (h 'x' (by simp)) (by decide)
  · exact absurd (h 'b' (by simp)) (by decide)
  · rfl

theorem parseImmediate_decimalText (b : Byte) : parseImmediate (decimalText b) = some b :=
  (parseImmediate_of_digits fun _ => isDigit_of_mem_decimalText).trans (byteNumeral_decimalText b)

/-! Register operands. -/

/-- A register operand is one of the four letters, or `reg` and the decimal value of a byte past 3 (R70). -/
theorem registerText_cases (b : RegIdByte) :
    (b = 0#8 ∧ registerText b = ['A']) ∨
    (b = 1#8 ∧ registerText b = ['B']) ∨
    (b = 2#8 ∧ registerText b = ['C']) ∨
    (b = 3#8 ∧ registerText b = ['D']) ∨
    (3 < b.toNat ∧ registerText b = "reg".toList ++ decimalText b) := by
  by_cases hb : 3 < b.toNat
  · have past_table (k : Byte) (hk : k.toNat ≤ 3) : b ≠ k := by
      rintro rfl
      omega
    simp [registerText, hb, past_table 0#8 (by decide), past_table 1#8 (by decide), past_table 2#8 (by decide),
      past_table 3#8 (by decide)]
  · obtain rfl | rfl | rfl | rfl : b = 0#8 ∨ b = 1#8 ∨ b = 2#8 ∨ b = 3#8 := by bv_omega
    all_goals decide

theorem isWord_registerText (b : RegIdByte) : IsWord (registerText b) := by
  obtain ⟨-, h⟩ | ⟨-, h⟩ | ⟨-, h⟩ | ⟨-, h⟩ | ⟨-, h⟩ := registerText_cases b <;> rw [h]
  iterate 4 exact ⟨by simp, by simp [separators]⟩
  exact IsWord.append ⟨by simp, by simp [separators]⟩ (isWord_decimalText b).no_separator

theorem parseRegister_registerText (b : RegIdByte) : parseRegister (registerText b) = some b := by
  obtain ⟨rfl, -⟩ | ⟨rfl, -⟩ | ⟨rfl, -⟩ | ⟨rfl, -⟩ | ⟨hb, h⟩ := registerText_cases b
  iterate 4 rfl
  rw [h]
  simp [parseRegister, byteNumeral_decimalText, hb]

/-! The byte of an unknown opcode, in two hexadecimal digits. -/

theorem digitValue_hexDigit {d : Nat} (h : d < 16) : digitValue (hexDigit d) = some d := by
  interval_cases d <;> rfl

theorem hexDigit_notMem_separators {d : Nat} (h : d < 16) : hexDigit d ∉ separators := by
  interval_cases d <;> decide

theorem byteNumeral_hexText (b : Byte) : byteNumeral 16 (hexText b) = some b := by
  have hb := b.isLt
  have hhigh : b.toNat / 16 < 16 := by omega
  have hlow : b.toNat % 16 < 16 := by omega
  refine byteNumeral_of_numeralFrom (List.cons_ne_nil _ _) ?_
  rw [hexText, ← List.singleton_append, numeralFrom_append, numeralFrom_singleton (digitValue_hexDigit hhigh) hhigh,
    Option.bind_some, numeralFrom_singleton (digitValue_hexDigit hlow) hlow, Nat.zero_mul, Nat.zero_add,
    Nat.div_add_mod']

theorem isWord_hexText_marked (b : Byte) : IsWord ("0x".toList ++ hexText b) := by
  have hb := b.isLt
  refine IsWord.append ⟨by simp, by simp [separators]⟩ fun c hc => ?_
  obtain rfl | rfl : c = hexDigit (b.toNat / 16) ∨ c = hexDigit (b.toNat % 16) := by simpa [hexText] using hc
  · exact hexDigit_notMem_separators (by omega)
  · exact hexDigit_notMem_separators (by omega)

/-! The fields of each mnemonic. -/

theorem assembleFields_load {r v : List Char} {r' v' : Byte} (hr : parseRegister r = some r')
    (hv : parseImmediate v = some v') : assembleFields "LOAD".toList [r, v] = some (.load r' v') := by
  simp [assembleFields, hr, hv]

theorem assembleFields_add {d s : List Char} {d' s' : Byte} (hd : parseRegister d = some d')
    (hs : parseRegister s = some s') : assembleFields "ADD".toList [d, s] = some (.add d' s') := by
  simp [assembleFields, hd, hs]

theorem assembleFields_and {d s : List Char} {d' s' : Byte} (hd : parseRegister d = some d')
    (hs : parseRegister s = some s') : assembleFields "AND".toList [d, s] = some (.and d' s') := by
  simp [assembleFields, hd, hs]

theorem assembleFields_out {r : List Char} {r' : Byte} (hr : parseRegister r = some r') :
    assembleFields "OUT".toList [r] = some (.out r') := by
  simp [assembleFields, hr]

theorem assembleFields_byte {op : Byte} (hwf : (Instr.unknown op).WellFormed) :
    assembleFields ".byte".toList ["0x".toList ++ hexText op] = some (.unknown op) := by
  have hnumeral : byteNumeral 16 [hexDigit (op.toNat / 16), hexDigit (op.toNat % 16)] = some op :=
    byteNumeral_hexText op
  simp [assembleFields, hexText, hnumeral, hwf]

/-! The line of each instruction: its mnemonic, a space, and its operand words. -/

theorem lineText_load (r imm : Byte) :
    lineText (.load r imm) = "LOAD".toList ++ ' ' :: (registerText r ++ ',' :: ' ' :: decimalText imm) := by
  unfold lineText
  simp

theorem lineText_add (d s : Byte) :
    lineText (.add d s) = "ADD".toList ++ ' ' :: (registerText d ++ ',' :: ' ' :: registerText s) := by
  unfold lineText
  simp

theorem lineText_and (d s : Byte) :
    lineText (.and d s) = "AND".toList ++ ' ' :: (registerText d ++ ',' :: ' ' :: registerText s) := by
  unfold lineText
  simp

theorem lineText_out (r : Byte) : lineText (.out r) = "OUT".toList ++ ' ' :: registerText r := rfl

theorem lineText_unknown (op : Byte) :
    lineText (.unknown op) = ".byte".toList ++ ' ' :: ("0x".toList ++ hexText op) := rfl

/-- Settles O15: a written line is its mnemonic and its operand words, and each word reads back as the byte it was
written from. -/
theorem writtenLineAssemblesBack : Obligations.WrittenLineAssemblesBack := by
  intro i hwf
  cases i with
  | load r imm =>
    rw [lineText_load,
      assembleLine_two_operands ⟨by simp, by simp [separators]⟩ (isWord_registerText r) (isWord_decimalText imm),
      assembleFields_load (parseRegister_registerText r) (parseImmediate_decimalText imm)]
  | add d s =>
    rw [lineText_add,
      assembleLine_two_operands ⟨by simp, by simp [separators]⟩ (isWord_registerText d) (isWord_registerText s),
      assembleFields_add (parseRegister_registerText d) (parseRegister_registerText s)]
  | and d s =>
    rw [lineText_and,
      assembleLine_two_operands ⟨by simp, by simp [separators]⟩ (isWord_registerText d) (isWord_registerText s),
      assembleFields_and (parseRegister_registerText d) (parseRegister_registerText s)]
  | out r =>
    rw [lineText_out, assembleLine_one_operand ⟨by simp, by simp [separators]⟩ (isWord_registerText r),
      assembleFields_out (parseRegister_registerText r)]
  | hlt => rfl
  | unknown op =>
    rw [lineText_unknown, assembleLine_one_operand ⟨by simp, by simp [separators]⟩ (isWord_hexText_marked op),
      assembleFields_byte hwf]

end Sys2Proof.Machine
